-- ==== Sys2Proof/Word.lean ====
section
/-! DEFINITION. The word types of the block: bytes, 32-bit registers and data, 16-bit command words, 36-bit
response words (00_scope.md R9, R10; 30_encoding.md R70, R71). All values are unsigned. -/

namespace Sys2Proof

/-- One byte, 8 bits (R9). -/
abbrev Byte := BitVec 8

/-- A 32-bit value: every register of the block, a header field, a response datum (R9). -/
abbrev Word := BitVec 32

/-- A command word, 16 bits, delivered whole by the host (R70). -/
abbrev CmdWord := BitVec 16

/-- A response as one word, `rcode ++ rdata`, 36 bits (R71). -/
abbrev RespWord := BitVec 36

end Sys2Proof
end

