-- ==== Sys2Proof/Syntax.lean ====
section
/-! DEFINITION. The nine commands (30_encoding.md R73), the register names of the register map (10_state.md R30), and
the lines of assembler text: commands and pseudo-instructions (R79, R80). -/

namespace Sys2Proof

/-- The command set, one constructor per row of the opcode table (R73). Format `B` rows carry their operand byte. -/
inductive Instr where
  /-- `CRC.INIT` (40_crc.md R92). -/
  | crcInit
  /-- `CRC.BYTE b` (R94). -/
  | crcByte (b : Byte)
  /-- `CRC.READ` (R96). -/
  | crcRead
  /-- `IMG.CLEAR` (41_image_buffer.md R111). -/
  | imgClear
  /-- `IMG.PUSH b` (R112). -/
  | imgPush (b : Byte)
  /-- `IMG.POP` (R113). -/
  | imgPop
  /-- `SIGN` (42_signer.md R132). -/
  | sign
  /-- `RDREG n` (43_system.md R161): any register number is a legal encoding (R76). -/
  | rdreg (n : Byte)
  /-- `SYS.RESET` (R163). -/
  | sysReset
deriving DecidableEq, Repr

/-- The registers RDREG can read (10_state.md R30): eight of state, five hardwired. -/
inductive Reg where
  | status | len | rptr | errval | rMagic | rVersion | rSize | rChecksum
  | cMagic | cHeaderSize | cPayloadOffset | cMinLen | cImgCap
deriving DecidableEq, Repr

/-- One line of assembler text (R79) or one pseudo-instruction (R80). Operands are the numbers as written: whether they
fit a byte is a question for `AsmLine.wellFormed`. -/
inductive AsmLine where
  | crcInit
  | crcByte (b : Nat)
  | crcRead
  | imgClear
  | imgPush (b : Nat)
  | imgPop
  | sign
  | rdreg (n : Nat)
  | sysReset
  /-- `CRC.BYTES b0 … bk` (R80). -/
  | crcBytes (bs : List Nat)
  /-- `CRC.OF b0 … bk` (R80). -/
  | crcOf (bs : List Nat)
  /-- `IMG.BYTES b0 … bk` (R80). -/
  | imgBytes (bs : List Nat)
  /-- `IMG.FILL n, b` (R80): the count `n` is any decimal number. -/
  | imgFill (n b : Nat)
  /-- `IMG.LOAD b0 … bk` (R80). -/
  | imgLoad (bs : List Nat)
  /-- `IMG.UNLOAD n` (R80). -/
  | imgUnload (n : Nat)
deriving DecidableEq, Repr

end Sys2Proof
end

