-- ==== Sys2Proof/WellFormed.lean ====
section
/-! DEFINITION. Which terms of the syntax the spec admits. A command's operand is a byte by its type and every byte is
admitted (30_encoding.md R70, R72, R76), so every `Instr` is well formed; a line of assembler text is well formed when
each byte operand is 0 to 255 (R79). -/

namespace Sys2Proof

/-- Every command with every operand byte is a command of the set (R72: `opd` is any value 0 to 255; R76: a reserved
register number is a legal encoding). The one restriction on an operand, that it is a byte, is its type, so no term of
`Instr` is ill formed. -/
def Instr.wellFormed : Instr → Bool
  | .crcInit => true
  | .crcByte _ => true
  | .crcRead => true
  | .imgClear => true
  | .imgPush _ => true
  | .imgPop => true
  | .sign => true
  | .rdreg _ => true
  | .sysReset => true

/-- A written operand fits the operand byte: 0 to 255 (R79). -/
def isByteOperand (n : Nat) : Bool := decide (n ≤ 255)

/-- Each byte operand of the line is 0 to 255 (R79); a count (R80) is any number. -/
def AsmLine.wellFormed : AsmLine → Bool
  | .crcInit => true
  | .crcByte b => isByteOperand b
  | .crcRead => true
  | .imgClear => true
  | .imgPush b => isByteOperand b
  | .imgPop => true
  | .sign => true
  | .rdreg n => isByteOperand n
  | .sysReset => true
  | .crcBytes bs => bs.all isByteOperand
  | .crcOf bs => bs.all isByteOperand
  | .imgBytes bs => bs.all isByteOperand
  | .imgFill _ b => isByteOperand b
  | .imgLoad bs => bs.all isByteOperand
  | .imgUnload _ => true

end Sys2Proof
end

