-- ==== Sys2Proof/Decode.lean ====
section
/-! DEFINITION. The decoder, total on 16-bit words and independent of state (30_encoding.md R70, R73 to R76), the encoder
written from the same table, and the opcode table itself as mask and match rows (R73). -/

namespace Sys2Proof

/-- `cmd[15:12]`, the command group (R70). -/
def CmdWord.grp (w : CmdWord) : BitVec 4 := w.extractLsb' 12 4

/-- `cmd[11:8]`, the function within the group (R70). -/
def CmdWord.fn (w : CmdWord) : BitVec 4 := w.extractLsb' 8 4

/-- `cmd[7:0]`, the operand byte, bit 0 of the word being bit 0 of the byte (R70, R72). -/
def CmdWord.opd (w : CmdWord) : Byte := w.extractLsb' 0 8

/-- Why a word is illegal: the kinds of R75. -/
inductive Illegal where
  /-- `grp` is 0x0 or 0x5 to 0xE. -/
  | unassignedGroup
  /-- `grp` is assigned and `fn` is not assigned in it. -/
  | unassignedFunction
  /-- A format `N` command with `opd` not 0x00. -/
  | operandNotZero
deriving DecidableEq, Repr

/-- Format `N`: `opd` must be 0x00 (R70). -/
def formatN (opd : Byte) (i : Instr) : Except Illegal Instr :=
  if opd = 0x00 then .ok i else .error .operandNotZero

/-- The decoder (R73 to R75): the command a word selects, or why it is illegal. -/
def decode (w : CmdWord) : Except Illegal Instr :=
  match (CmdWord.grp w).toNat with
  | 0x1 =>
    match (CmdWord.fn w).toNat with
    | 0x0 => formatN (CmdWord.opd w) .crcInit
    | 0x1 => .ok (.crcByte (CmdWord.opd w))
    | 0x2 => formatN (CmdWord.opd w) .crcRead
    | _ => .error .unassignedFunction
  | 0x2 =>
    match (CmdWord.fn w).toNat with
    | 0x0 => formatN (CmdWord.opd w) .imgClear
    | 0x1 => .ok (.imgPush (CmdWord.opd w))
    | 0x2 => formatN (CmdWord.opd w) .imgPop
    | _ => .error .unassignedFunction
  | 0x3 =>
    match (CmdWord.fn w).toNat with
    | 0x0 => formatN (CmdWord.opd w) .sign
    | _ => .error .unassignedFunction
  | 0x4 =>
    match (CmdWord.fn w).toNat with
    | 0x0 => .ok (.rdreg (CmdWord.opd w))
    | _ => .error .unassignedFunction
  | 0xF =>
    match (CmdWord.fn w).toNat with
    | 0x0 => formatN (CmdWord.opd w) .sysReset
    | _ => .error .unassignedFunction
  | _ => .error .unassignedGroup

/-- A word from its three fields, `grp ++ fn ++ opd` (R70). -/
def cmdWord (grp fn : BitVec 4) (opd : Byte) : CmdWord := grp ++ fn ++ opd

/-- The encoder (R73, the columns grp, fn and opd). -/
def encode : Instr → CmdWord
  | .crcInit => cmdWord 0x1 0x0 0x00
  | .crcByte b => cmdWord 0x1 0x1 b
  | .crcRead => cmdWord 0x1 0x2 0x00
  | .imgClear => cmdWord 0x2 0x0 0x00
  | .imgPush b => cmdWord 0x2 0x1 b
  | .imgPop => cmdWord 0x2 0x2 0x00
  | .sign => cmdWord 0x3 0x0 0x00
  | .rdreg n => cmdWord 0x4 0x0 n
  | .sysReset => cmdWord 0xF 0x0 0x00

/-- One row of the opcode table: a word `w` selects it when `w and mask = pattern` (R73; the table's column `match`). -/
structure OpRow where
  mnemonic : String
  pattern : CmdWord
  mask : CmdWord
deriving DecidableEq, Repr

/-- `w` selects the row (R73). -/
def OpRow.selects (r : OpRow) (w : CmdWord) : Bool := w &&& r.mask == r.pattern

/-- The table of R73, its columns mnemonic, match and mask. -/
def opcodeTable : List OpRow :=
  [⟨"CRC.INIT", 0x1000, 0xFFFF⟩, ⟨"CRC.BYTE", 0x1100, 0xFF00⟩, ⟨"CRC.READ", 0x1200, 0xFFFF⟩,
   ⟨"IMG.CLEAR", 0x2000, 0xFFFF⟩, ⟨"IMG.PUSH", 0x2100, 0xFF00⟩, ⟨"IMG.POP", 0x2200, 0xFFFF⟩,
   ⟨"SIGN", 0x3000, 0xFFFF⟩, ⟨"RDREG", 0x4000, 0xFF00⟩, ⟨"SYS.RESET", 0xF000, 0xFFFF⟩]

/-- The mnemonic of a command (R73). -/
def mnemonic : Instr → String
  | .crcInit => "CRC.INIT"
  | .crcByte _ => "CRC.BYTE"
  | .crcRead => "CRC.READ"
  | .imgClear => "IMG.CLEAR"
  | .imgPush _ => "IMG.PUSH"
  | .imgPop => "IMG.POP"
  | .sign => "SIGN"
  | .rdreg _ => "RDREG"
  | .sysReset => "SYS.RESET"

/-- The rows of the table that a word selects (R73: at most one). -/
def rowsSelected (w : CmdWord) : List OpRow := opcodeTable.filter (fun r => r.selects w)

/-- The command word whose low `nbits` bits are those of `w` and whose other bits are 0. A command is one 16-bit word,
delivered whole (R70, R77), so there is no byte order to lay out. -/
def tableWord (nbits w : Nat) : CmdWord := BitVec.ofNat 16 (w % 2 ^ nbits)

/-- What the decoder reads from a command whose bits are `w`. -/
def decodeTableWord (nbits w : Nat) : Option Instr :=
  match decode (tableWord nbits w) with
  | .ok i => some i
  | .error _ => none

end Sys2Proof
end

