-- ==== Sys2Proof/Config.lean ====
section
/-! DEFINITION. What is fixed for one block: the named constants of 00_scope.md R7 and the open parameter IMG_CAP of
R8, which is an opaque constant here (log 4), so that every statement holds for every capacity R8 admits. -/

namespace Sys2Proof.Config

/-- `MAGIC` (R7, 10_state.md R36). -/
def magic : Word := 0xDEADBEEF

/-- `HEADER_SIZE` (R7, R37): readable, and part of no check (90_conflicts.md C1). -/
def headerSize : Nat := 32

/-- `PAYLOAD_OFFSET` (R7, R38). -/
def payloadOffset : Nat := 256

/-- `MIN_LEN` (R7, R39; 90_conflicts.md C1). -/
def minLen : Nat := 256

/-- `CRC_POLY`, reflected form (R7, 40_crc.md R90). -/
def crcPoly : Word := 0xEDB88320

/-- `CRC_INIT` (R7, R90). -/
def crcInit : Word := 0xFFFFFFFF

/-- `CRC_XOROUT` (R7, R90). -/
def crcXorOut : Word := 0xFFFFFFFF

/-- How far `IMG_CAP` lies above its least value 256: any number that keeps it at most 2^32 - 1 (R8). It has no body: it
is the spec's parameter, and no proof can see its value (log 4). -/
opaque imgCapAboveMin : Fin 4294967040

/-- `IMG_CAP`, the capacity of the image buffer in bytes, 256 to 2^32 - 1 (R8). -/
def imgCap : Nat := imgCapAboveMin.val + 256

/-- `n = IMG_CAP`. The first test is implied by the second (R8); with it the question is settled for a small `n`
without looking at the parameter. -/
def atImgCap (n : Nat) : Bool := decide (256 ≤ n) && decide (n = imgCap)

/-- `n < IMG_CAP`, the offsets that exist (10_state.md R22). The first test implies the second (R8). -/
def belowImgCap (n : Nat) : Bool := decide (n < 256) || decide (n < imgCap)

end Sys2Proof.Config
end

