-- ==== Sys2Proof/Machine/State.lean ====
section
/-! DEFINITION. The state of one block (10_state.md R20), the two ports through which the host drives it, the response
codes (60_exceptions.md R171), the reasons a step can stop, and the state after reset (R42). -/

namespace Sys2Proof.Machine

/-- The state code `STATUS[1:0]` (R25). `STATUS[31:2]` is hardwired zero and all four codes are used, so this is the
whole content of the register. -/
inductive SignStatus where
  /-- `ST_IDLE`, 0: the buffer is being loaded, no result exists. -/
  | idle
  /-- `ST_SIGNED`, 1: the last SIGN succeeded. -/
  | signed
  /-- `ST_TOO_SMALL`, 2: the last SIGN failed with `ImageTooSmall`. -/
  | tooSmall
  /-- `ST_BAD_MAGIC`, 3: the last SIGN failed with `InvalidMagic`. -/
  | badMagic
deriving DecidableEq, Repr

/-- The response codes that are ever produced (R171; 7 and 10 to 15 are reserved and never produced). -/
inductive RCode where
  | ok | illegalCmd | badReg | seqError | imgFull | noOutput | endOfImage | imageTooSmall | invalidMagic
deriving DecidableEq, Repr

/-- A response: `rcode` and the 32-bit `rdata` (30_encoding.md R71). -/
structure Response where
  code : RCode
  data : Word
deriving DecidableEq, Repr

/-- One thing the host does at the command port: it gives a command word (R70), or it asserts the hardware reset
(70_reset_and_hazards.md R200). -/
inductive HostEvent where
  | command (w : CmdWord)
  | reset
deriving DecidableEq, Repr

/-- Image memory: the bytes that have been written, by offset, offsets strictly rising (log 2). -/
abbrev Memory := List Host.Cell

/-- The state of one block: the ten pieces of R20, and the two ports. -/
structure State where
  /-- `CRC`, the raw remainder (R21). -/
  crc : Word
  /-- `IMG`, the image buffer (R22). -/
  img : Memory
  /-- `LEN`, the number of bytes loaded (R23). -/
  len : Word
  /-- `RPTR`, the offset of the next byte IMG.POP returns (R24). -/
  rptr : Word
  /-- `STATUS` (R25). -/
  status : SignStatus
  /-- `ERRVAL` (R26). -/
  errval : Word
  /-- `R_MAGIC` (R31). -/
  rMagic : Word
  /-- `R_VERSION` (R32). -/
  rVersion : Word
  /-- `R_SIZE` (R33). -/
  rSize : Word
  /-- `R_CHECKSUM` (R34). -/
  rChecksum : Word
  /-- The model's own field: the response to the last command, none before the first one (R71; DESIGN CHOICE, log 3). -/
  resp : Option Response
  /-- The model's own field: what the host does next, in the order it does it (00_scope.md R15, R16; DESIGN CHOICE,
  log 1). -/
  input : List HostEvent
deriving DecidableEq, Repr

/-- Why a step stops with a fault. No command of a state that meets `Safety`'s invariant raises one. -/
inductive Fault where
  /-- Raised by a read of an image byte that nothing has written (10_state.md R43, 93 U6: it has no value). Safe. -/
  | unwrittenByte (offset : Nat)
  /-- Raised by an access to an offset at or above `IMG_CAP`, which does not exist (R22). Safe. -/
  | noSuchOffset (offset : Nat)
deriving DecidableEq, Repr

/-- Why a step is refused. Every command of the set has a meaning and every illegal word has its response, so none is. -/
inductive Refusal where
  /-- Kept for a command without a meaning; no arm of `exec` raises it. Safe. -/
  | notModelled (mnemonic : String)
deriving DecidableEq, Repr

/-- The state after reset (R42). `IMG` is unspecified there: nothing is listed and no byte has a value (log 2). No
response has been given and the host has issued nothing (log 1, log 3). -/
def State.reset : State where
  crc := Config.crcInit
  img := []
  len := 0
  rptr := 0
  status := .idle
  errval := 0
  rMagic := 0
  rVersion := 0
  rSize := 0
  rChecksum := 0
  resp := none
  input := []

end Sys2Proof.Machine
end

