-- ==== Sys2Proof/Machine/Flags.lean ====
section
/-! DEFINITION. The status word and the response codes as bits (10_state.md R25, 60_exceptions.md R171, 30_encoding.md
R71). The block has no other flags (R20). -/

namespace Sys2Proof.Machine

/-- The two bits `ST` of a state code (R25). -/
def SignStatus.st : SignStatus → BitVec 2
  | .idle => 0
  | .signed => 1
  | .tooSmall => 2
  | .badMagic => 3

/-- The 32-bit `STATUS` word: `ST` in bits 1:0, zeros above (R25). -/
def SignStatus.word (st : SignStatus) : Word := (SignStatus.st st).setWidth 32

/-- The 4-bit `rcode` of a response code (R171). -/
def RCode.bits : RCode → BitVec 4
  | .ok => 0
  | .illegalCmd => 1
  | .badReg => 2
  | .seqError => 3
  | .imgFull => 4
  | .noOutput => 5
  | .endOfImage => 6
  | .imageTooSmall => 8
  | .invalidMagic => 9

/-- The six interface refusals, which change no state (R175). -/
def RCode.isRefusal : RCode → Bool
  | .ok => false
  | .illegalCmd => true
  | .badReg => true
  | .seqError => true
  | .imgFull => true
  | .noOutput => true
  | .endOfImage => true
  | .imageTooSmall => false
  | .invalidMagic => false

/-- A response as one 36-bit word, `rcode ++ rdata` (R71). -/
def Response.word (r : Response) : RespWord := RCode.bits r.code ++ r.data

end Sys2Proof.Machine
end

