-- ==== Sys2Proof/Machine/Ops.lean ====
section
/-! DEFINITION. The named operations every command is made of: image memory and the memory primitives (00_scope.md R12),
register updates, ending a command with a response (R13, 60_exceptions.md R170), reset, and what the command port does
with an illegal word or with no word at all. -/

namespace Sys2Proof.Machine

/-- A computation over image memory that may make an access the spec gives no value for. -/
abbrev Access (α : Type) := Except Fault α

/-- What one command, or one step, comes to. -/
abbrev Result := Host.Outcome State Fault Refusal

/-- The byte at an offset, none where nothing has been written (10_state.md R43; log 2). -/
def Memory.read : Memory → Nat → Option Byte
  | [], _ => none
  | (x, b) :: rest, a => if x = a then some b else Memory.read rest a

/-- Memory with `b` at offset `a`, offsets kept rising. -/
def Memory.write : Memory → Nat → Byte → Memory
  | [], a, b => [(a, b)]
  | (x, c) :: rest, a, b =>
    if a < x then (a, b) :: (x, c) :: rest
    else if a = x then (a, b) :: rest
    else (x, c) :: Memory.write rest a b

/-- Every offset of the list is above `a` and the offsets rise strictly. -/
def Memory.risingAbove : Nat → Memory → Bool
  | _, [] => true
  | a, (x, _) :: rest => decide (a < x) && Memory.risingAbove x rest

/-- The canonical form: offsets strictly rising. An unlisted offset has no value, so no entry can equal one. -/
def Memory.wf : Memory → Bool
  | [] => true
  | (x, _) :: rest => Memory.risingAbove x rest

/-- Every listed offset exists (R22). -/
def Memory.inImage : Memory → Bool
  | [] => true
  | (x, _) :: rest => Config.belowImgCap x && Memory.inImage rest

/-- The `n` bytes from offset `a` up, none unless all of them have been written. -/
def Memory.bytes (m : Memory) (a : Nat) : Nat → Option (List Byte)
  | 0 => some []
  | n + 1 =>
    match Memory.read m a, Memory.bytes m (a + 1) n with
    | some b, some bs => some (b :: bs)
    | _, _ => none

/-- The loaded image, `IMG[0 .. LEN-1]` (R22, R23). -/
def State.image (s : State) : Option (List Byte) := Memory.bytes s.img 0 s.len.toNat

/-- Byte `k` of a 32-bit value, byte 0 the least significant (20_memory.md R54). -/
def byteOf (v : Word) (k : Nat) : Byte := v.extractLsb' (8 * k) 8

/-- The 32-bit value of four bytes, lowest offset first (R54). -/
def ofBytes (b0 b1 b2 b3 : Byte) : Word := b3 ++ b2 ++ b1 ++ b0

/-- `MemRead(a, 1)` (R12). -/
def State.memRead1 (s : State) (a : Nat) : Access Byte :=
  match Memory.read s.img a with
  | some b => .ok b
  | none => .error (if Config.belowImgCap a then .unwrittenByte a else .noSuchOffset a)

/-- `MemRead(a, 4)`, little-endian (R12). -/
def State.memRead4 (s : State) (a : Nat) : Access Word := do
  let b0 ← s.memRead1 a
  let b1 ← s.memRead1 (a + 1)
  let b2 ← s.memRead1 (a + 2)
  let b3 ← s.memRead1 (a + 3)
  return ofBytes b0 b1 b2 b3

/-- `CRC <- v`. -/
def State.setCrc (s : State) (v : Word) : State := { s with crc := v }
/-- `IMG` as a whole; used by the memory primitives only. -/
def State.setImg (s : State) (m : Memory) : State := { s with img := m }
/-- `LEN <- v`. -/
def State.setLen (s : State) (v : Word) : State := { s with len := v }
/-- `RPTR <- v`. -/
def State.setRptr (s : State) (v : Word) : State := { s with rptr := v }
/-- `STATUS <- st`. -/
def State.setStatus (s : State) (st : SignStatus) : State := { s with status := st }
/-- `ERRVAL <- v`. -/
def State.setErrval (s : State) (v : Word) : State := { s with errval := v }
/-- `R_MAGIC`, `R_VERSION`, `R_SIZE`, `R_CHECKSUM`, in that order. -/
def State.setResults (s : State) (magic version size checksum : Word) : State :=
  { s with rMagic := magic, rVersion := version, rSize := size, rChecksum := checksum }
/-- The response port. -/
def State.setResp (s : State) (r : Option Response) : State := { s with resp := r }
/-- The command port. -/
def State.setInput (s : State) (es : List HostEvent) : State := { s with input := es }

/-- `MemWrite(a, 1, b)` (R12). -/
def State.memWrite1 (s : State) (a : Nat) (b : Byte) : Access State :=
  if Config.belowImgCap a then .ok (s.setImg (Memory.write s.img a b)) else .error (.noSuchOffset a)

/-- `MemWrite(a, 4, v)`, little-endian (R12). -/
def State.memWrite4 (s : State) (a : Nat) (v : Word) : Access State := do
  let s0 ← s.memWrite1 a (byteOf v 0)
  let s1 ← s0.memWrite1 (a + 1) (byteOf v 1)
  let s2 ← s1.memWrite1 (a + 2) (byteOf v 2)
  s2.memWrite1 (a + 3) (byteOf v 3)

/-- A command goes on with what an access gave, or the step stops with the access's fault. -/
def withAccess {α : Type} (r : Access α) (k : α → Result) : Result :=
  match r with
  | .ok x => k x
  | .error f => .fault f

/-- The command ends with this response; the state is what its pseudocode has written so far (R13, R71, R170). Control
goes nowhere: there is no program counter and no handler (R170, R178). -/
def answer (s : State) (code : RCode) (data : Word) : Result := .next (s.setResp (some ⟨code, data⟩))

/-- `respond OK(d)` (R13). -/
def respondOk (s : State) (data : Word) : Result := answer s .ok data

/-- `raise <Name>(d)`: the one way a command takes an exception of this block (R13, R170, R178). There is no return from
it (R179): the next command is executed normally. -/
def raise (s : State) (code : RCode) (data : Word) : Result := answer s code data

/-- What reset, SYS.RESET and IMG.CLEAR have in common (41_image_buffer.md R111, 43_system.md R163): an empty idle buffer
and no result. No byte of `IMG` is written (R43). -/
def State.emptyBuffer (s : State) : State :=
  ((((s.setLen 0).setRptr 0).setStatus .idle).setErrval 0).setResults 0 0 0 0

/-- Every register as reset leaves it (R42); `IMG` is not written (R43). -/
def State.resetRegisters (s : State) : State := s.emptyBuffer.setCrc Config.crcInit

/-- The hardware reset (70_reset_and_hazards.md R200): the reset state, and no response stands (log 6). -/
def hardwareReset (s : State) : Result := .next (s.resetRegisters.setResp none)

/-- An illegal word: `ILLEGAL_CMD`, and no other state changes (30_encoding.md R75). -/
def illegalCommand (s : State) : Result := raise s .illegalCmd 0

/-- No command is waiting: the block waits, and takes no step of its own (00_scope.md R15, 70_reset_and_hazards.md R201;
DESIGN CHOICE, log 1). -/
def waitForCommand (s : State) : Result := .next s

end Sys2Proof.Machine
end

