-- ==== Sys2Proof/Machine/ImageBuffer.lean ====
section
/-! DEFINITION. The image buffer commands (41_image_buffer.md): IMG.CLEAR (R111), IMG.PUSH (R112), IMG.POP (R113). -/

namespace Sys2Proof.Machine

/-- `IMG.CLEAR` (R111). -/
def execImgClear (s : State) : Result := respondOk s.emptyBuffer 0

/-- `IMG.PUSH b` (R112): `SEQ_ERROR` is tested before `IMG_FULL` (60_exceptions.md R177). -/
def execImgPush (b : Byte) (s : State) : Result :=
  if s.status ≠ .idle then raise s .seqError 0
  else if Config.atImgCap s.len.toNat then raise s .imgFull 0
  else withAccess (s.memWrite1 s.len.toNat b) fun s' => respondOk (s'.setLen (s'.len + 1)) 0

/-- `IMG.POP` (R113): `NO_OUTPUT` is tested before `END_OF_IMAGE` (R177). -/
def execImgPop (s : State) : Result :=
  if s.status ≠ .signed then raise s .noOutput 0
  else if s.rptr = s.len then raise s .endOfImage 0
  else withAccess (s.memRead1 s.rptr.toNat) fun v => respondOk (s.setRptr (s.rptr + 1)) (v.setWidth 32)

end Sys2Proof.Machine
end

