-- ==== Sys2Proof/Machine/Signer.lean ====
section
/-! DEFINITION. The image layout validator and header patcher (42_signer.md): the meaning of SIGN (R132), and the source's
contract `sign` on byte sequences, independent of any state (R131). -/

namespace Sys2Proof.Machine

/-- Phase 3's loop (R132): the `n` bytes from offset `a` up are fed to the CRC in ascending order. -/
def State.crcScan (s : State) (a : Nat) : Nat → Word → Access Word
  | 0, c => .ok c
  | n + 1, c => do
    let b ← s.memRead1 a
    s.crcScan (a + 1) n (crcStep c b)

/-- Phase 0 (R132): forget the previous result. -/
def State.forgetResult (s : State) : State := ((s.setRptr 0).setErrval 0).setResults 0 0 0 0

/-- Phase 4 (R132): patch bytes 8 to 15. -/
def State.patchHeader (s : State) (size checksum : Word) : Access State := do
  let s1 ← s.memWrite4 8 size
  s1.memWrite4 12 checksum

/-- Phase 4 (R132): publish the result; `c` is the raw remainder. -/
def State.publish (s : State) (c magic version size checksum : Word) : State :=
  ((s.setCrc c).setResults magic version size checksum).setStatus .signed

/-- Phases 3 and 4 (R132): size, checksum, patch, publish. -/
def signPayload (magic version : Word) (s : State) : Result :=
  let size := s.len - BitVec.ofNat 32 Config.payloadOffset
  withAccess (s.crcScan Config.payloadOffset (s.len.toNat - Config.payloadOffset) Config.crcInit) fun c =>
    let checksum := c ^^^ Config.crcXorOut
    withAccess (s.patchHeader size checksum) fun s' =>
      respondOk (s'.publish c magic version size checksum) checksum

/-- Phase 2 (R132): read the header and check the magic. -/
def signHeader (s : State) : Result :=
  withAccess (s.memRead4 0) fun magic =>
    withAccess (s.memRead4 4) fun version =>
      if magic ≠ Config.magic then raise ((s.setStatus .badMagic).setErrval magic) .invalidMagic magic
      else signPayload magic version s

/-- Phase 1 (R132): the length is tested first (R136). -/
def signChecked (s : State) : Result :=
  if s.len.toNat < Config.minLen then raise (s.setStatus .tooSmall) .imageTooSmall 0 else signHeader s

/-- `SIGN` (R132): accepted in every state. -/
def execSign (s : State) : Result := signChecked s.forgetResult

/-- The two errors of the signer (60_exceptions.md R172 to R174). -/
inductive SignError where
  | imageTooSmall
  | invalidMagic (found : Word)
deriving DecidableEq, Repr

/-- `LE32(I, a)` (R131). It is used at offsets below the sequence's length only. -/
def le32 (I : List Byte) (a : Nat) : Word :=
  ofBytes (I.getD a 0) (I.getD (a + 1) 0) (I.getD (a + 2) 0) (I.getD (a + 3) 0)

/-- `I` with the four bytes from `a` up set to `v`, little-endian (R131). -/
def putLe32 (I : List Byte) (a : Nat) (v : Word) : List Byte :=
  (((I.set a (byteOf v 0)).set (a + 1) (byteOf v 1)).set (a + 2) (byteOf v 2)).set (a + 3) (byteOf v 3)

/-- The payload of an image: bytes 256 to the end (20_memory.md R51). -/
def payload (I : List Byte) : List Byte := I.drop Config.payloadOffset

/-- The function `sign(I)` of R131. Its size field is the 32-bit value of L - 256, which is exact for L < 2^32 + 256
(R139, 93_implementation_defined.md U14; log 8). -/
def signImage (I : List Byte) : Except SignError (List Byte) :=
  if I.length < Config.minLen then .error .imageTooSmall
  else if le32 I 0 ≠ Config.magic then .error (.invalidMagic (le32 I 0))
  else .ok (putLe32 (putLe32 I 8 (BitVec.ofNat 32 (I.length - Config.payloadOffset))) 12 (crc32 (payload I)))

end Sys2Proof.Machine
end

