-- ==== Sys2Proof/Machine/Operands.lean ====
section
/-! DEFINITION. The operands of commands: a byte of data, which needs no operation (30_encoding.md R72), and a register
number with what each register reads as (10_state.md R30 to R40, 43_system.md R161). -/

namespace Sys2Proof.Machine

/-- The register a number stands for, none where it is reserved (R30, R35). -/
def regOfNumber (n : Byte) : Option Reg :=
  match n.toNat with
  | 0x00 => some .status
  | 0x01 => some .len
  | 0x02 => some .rptr
  | 0x03 => some .errval
  | 0x04 => some .rMagic
  | 0x05 => some .rVersion
  | 0x06 => some .rSize
  | 0x07 => some .rChecksum
  | 0x10 => some .cMagic
  | 0x11 => some .cHeaderSize
  | 0x12 => some .cPayloadOffset
  | 0x13 => some .cMinLen
  | 0x14 => some .cImgCap
  | _ => none

/-- The number of a register (R30). -/
def regNumber : Reg → Byte
  | .status => 0x00
  | .len => 0x01
  | .rptr => 0x02
  | .errval => 0x03
  | .rMagic => 0x04
  | .rVersion => 0x05
  | .rSize => 0x06
  | .rChecksum => 0x07
  | .cMagic => 0x10
  | .cHeaderSize => 0x11
  | .cPayloadOffset => 0x12
  | .cMinLen => 0x13
  | .cImgCap => 0x14

/-- What a register reads as (R25 to R40). -/
def State.readReg (s : State) : Reg → Word
  | .status => SignStatus.word s.status
  | .len => s.len
  | .rptr => s.rptr
  | .errval => s.errval
  | .rMagic => s.rMagic
  | .rVersion => s.rVersion
  | .rSize => s.rSize
  | .rChecksum => s.rChecksum
  | .cMagic => Config.magic
  | .cHeaderSize => BitVec.ofNat 32 Config.headerSize
  | .cPayloadOffset => BitVec.ofNat 32 Config.payloadOffset
  | .cMinLen => BitVec.ofNat 32 Config.minLen
  | .cImgCap => BitVec.ofNat 32 Config.imgCap

end Sys2Proof.Machine
end

