-- ==== Sys2Proof/Machine/System.lean ====
section
/-! DEFINITION. Register access and system commands (43_system.md): RDREG (R161) and SYS.RESET (R163). -/

namespace Sys2Proof.Machine

/-- `RDREG n` (R161). -/
def execRdreg (n : Byte) (s : State) : Result :=
  match regOfNumber n with
  | some r => respondOk s (s.readReg r)
  | none => raise s .badReg 0

/-- `SYS.RESET` (R163). -/
def execSysReset (s : State) : Result := respondOk s.resetRegisters 0

end Sys2Proof.Machine
end

