-- ==== Sys2Proof/Machine/Dispatch.lean ====
section
/-! DEFINITION. One arm per command (30_encoding.md R73). -/

namespace Sys2Proof.Machine

def exec (i : Instr) (s : State) : Host.Outcome State Fault Refusal :=
  match i with
  | .crcInit => Sys2Proof.Machine.execCrcInit s
  | .crcByte b => Sys2Proof.Machine.execCrcByte b s
  | .crcRead => Sys2Proof.Machine.execCrcRead s
  | .imgClear => Sys2Proof.Machine.execImgClear s
  | .imgPush b => Sys2Proof.Machine.execImgPush b s
  | .imgPop => Sys2Proof.Machine.execImgPop s
  | .sign => Sys2Proof.Machine.execSign s
  | .rdreg n => Sys2Proof.Machine.execRdreg n s
  | .sysReset => Sys2Proof.Machine.execSysReset s

end Sys2Proof.Machine
end

