-- ==== Sys2Proof/Machine/Step.lean ====
section
/-! DEFINITION. One step: the block takes what the host does next and carries it out, whole (00_scope.md R15, R64;
30_encoding.md R70, R74, R75). -/

namespace Sys2Proof.Machine

/-- A command word on the port: the command it selects is executed, an illegal word is refused (R74, R75). -/
def runWord (w : CmdWord) (s : State) : Host.Outcome State Fault Refusal :=
  match decode w with
  | .ok i => exec i s
  | .error _ => illegalCommand s

/-- One step (log 1). -/
def step (s : State) : Host.Outcome State Fault Refusal :=
  match s.input with
  | [] => waitForCommand s
  | .reset :: rest => hardwareReset (s.setInput rest)
  | .command w :: rest => runWord w (s.setInput rest)

/-- `s` with the command whose bits are `w` as the next thing the host does; what the host does after it stays. -/
def State.withFetchWord (s : State) (nbits w : Nat) : State :=
  s.setInput (.command (tableWord nbits w) :: s.input)

end Sys2Proof.Machine
end

