-- ==== Sys2Proof/Machine/Asm.lean ====
section
/-! DEFINITION. The assembler (30_encoding.md R79, R80): reading a line of text, and expanding a line to the commands it
stands for. The block never sees any of it. -/

namespace Sys2Proof.Machine

/-- Why a line of text is no line of assembler (R79, R80). -/
inductive AsmError where
  /-- The first word is no mnemonic and no pseudo-instruction. -/
  | unknownMnemonic
  /-- An operand is no number, no register name, or outside 0 to 255. -/
  | badOperand
  /-- Too many or too few operands. -/
  | operandCount
deriving DecidableEq, Repr

/-- A written operand as a byte; used on operands that are 0 to 255. -/
def asmByte (n : Nat) : Byte := BitVec.ofNat 8 n

/-- The commands of a well-formed line, in order (R79, R80). -/
def expandLine : AsmLine → List Instr
  | .crcInit => [.crcInit]
  | .crcByte b => [.crcByte (asmByte b)]
  | .crcRead => [.crcRead]
  | .imgClear => [.imgClear]
  | .imgPush b => [.imgPush (asmByte b)]
  | .imgPop => [.imgPop]
  | .sign => [.sign]
  | .rdreg n => [.rdreg (asmByte n)]
  | .sysReset => [.sysReset]
  | .crcBytes bs => bs.map fun b => .crcByte (asmByte b)
  | .crcOf bs => .crcInit :: (bs.map fun b => .crcByte (asmByte b)) ++ [.crcRead]
  | .imgBytes bs => bs.map fun b => .imgPush (asmByte b)
  | .imgFill n b => List.replicate n (.imgPush (asmByte b))
  | .imgLoad bs => .imgClear :: bs.map fun b => .imgPush (asmByte b)
  | .imgUnload n => List.replicate n .imgPop

/-- The command words of a line (R73, R79), refused where an operand is no byte. -/
def assembleLine (l : AsmLine) : Except AsmError (List CmdWord) :=
  if AsmLine.wellFormed l then .ok ((expandLine l).map encode) else .error .badOperand

/-- Characters between the words of a line: a space, a tab, a comma (R80; log 10). -/
def isSeparator (c : Char) : Bool := c == ' ' || c == '\t' || c == ','

/-- The text before a `;` (R79). -/
def stripComment : List Char → List Char
  | [] => []
  | c :: cs => if c == ';' then [] else c :: stripComment cs

/-- The words of a line; `word` holds the characters of the current word, last one first. -/
def lineWords (word : List Char) : List Char → List (List Char)
  | [] => if word.isEmpty then [] else [word.reverse]
  | c :: cs =>
    if isSeparator c then
      if word.isEmpty then lineWords [] cs else word.reverse :: lineWords [] cs
    else lineWords (c :: word) cs

/-- The value of a decimal digit. -/
def decDigit (c : Char) : Option Nat :=
  if 48 ≤ c.toNat ∧ c.toNat ≤ 57 then some (c.toNat - 48) else none

/-- The value of a hexadecimal digit, of either case (log 10). -/
def hexDigit (c : Char) : Option Nat :=
  if 65 ≤ c.toNat ∧ c.toNat ≤ 70 then some (c.toNat - 55)
  else if 97 ≤ c.toNat ∧ c.toNat ≤ 102 then some (c.toNat - 87)
  else decDigit c

/-- A run of decimal digits, read on from `n`. -/
def decNumber (n : Nat) : List Char → Option Nat
  | [] => some n
  | c :: cs =>
    match decDigit c with
    | some d => decNumber (10 * n + d) cs
    | none => none

/-- A number: `0x` and two hexadecimal digits, or a decimal (R79). A decimal may have leading zeros and any number of
digits, `007` or `0170`: R79 says only "decimal 0 to 255" (DESIGN CHOICE, log 10). -/
def asmNumber : List Char → Option Nat
  | [] => none
  | ['0', 'x', h, l] =>
    match hexDigit h, hexDigit l with
    | some a, some b => some (16 * a + b)
    | _, _ => none
  | cs => decNumber 0 cs

/-- The name of a register in assembler text (R79, 10_state.md R30). -/
def regName : Reg → String
  | .status => "STATUS"
  | .len => "LEN"
  | .rptr => "RPTR"
  | .errval => "ERRVAL"
  | .rMagic => "R_MAGIC"
  | .rVersion => "R_VERSION"
  | .rSize => "R_SIZE"
  | .rChecksum => "R_CHECKSUM"
  | .cMagic => "C_MAGIC"
  | .cHeaderSize => "C_HEADER_SIZE"
  | .cPayloadOffset => "C_PAYLOAD_OFFSET"
  | .cMinLen => "C_MIN_LEN"
  | .cImgCap => "C_IMG_CAP"

/-- Every register RDREG can read (R30). -/
def allRegs : List Reg :=
  [.status, .len, .rptr, .errval, .rMagic, .rVersion, .rSize, .rChecksum,
   .cMagic, .cHeaderSize, .cPayloadOffset, .cMinLen, .cImgCap]

/-- The operand of RDREG: a register's name, or a number (R79). -/
def asmRegister (cs : List Char) : Option Nat :=
  match allRegs.find? (fun r => (regName r).toList == cs) with
  | some r => some (regNumber r).toNat
  | none => asmNumber cs

/-- A decimal count (R80), with leading zeros or without (DESIGN CHOICE, log 10). -/
def asmCount : List Char → Option Nat
  | [] => none
  | cs => decNumber 0 cs

/-- A line without operands. -/
def lineN (args : List (List Char)) (l : AsmLine) : Except AsmError (Option AsmLine) :=
  if args.isEmpty then .ok (some l) else .error .operandCount

/-- A line with one operand, read by `rd`. -/
def lineB (args : List (List Char)) (rd : List Char → Option Nat) (mk : Nat → AsmLine) :
    Except AsmError (Option AsmLine) :=
  match args with
  | [a] =>
    match rd a with
    | some n => .ok (some (mk n))
    | none => .error .badOperand
  | _ => .error .operandCount

/-- A line with a list of bytes, which may be empty (R80). -/
def lineBs (args : List (List Char)) (mk : List Nat → AsmLine) : Except AsmError (Option AsmLine) :=
  match args.mapM asmNumber with
  | some ns => .ok (some (mk ns))
  | none => .error .badOperand

/-- A line with a count and a byte (R80). -/
def lineCountByte (args : List (List Char)) (mk : Nat → Nat → AsmLine) : Except AsmError (Option AsmLine) :=
  match args with
  | [a, b] =>
    match asmCount a, asmNumber b with
    | some n, some v => .ok (some (mk n v))
    | _, _ => .error .badOperand
  | _ => .error .operandCount

/-- A line from its words: the mnemonic in capitals, then the operands (R79, R80). -/
def parseWords (name : List Char) (args : List (List Char)) : Except AsmError (Option AsmLine) :=
  if name = "CRC.INIT".toList then lineN args .crcInit
  else if name = "CRC.BYTE".toList then lineB args asmNumber .crcByte
  else if name = "CRC.READ".toList then lineN args .crcRead
  else if name = "IMG.CLEAR".toList then lineN args .imgClear
  else if name = "IMG.PUSH".toList then lineB args asmNumber .imgPush
  else if name = "IMG.POP".toList then lineN args .imgPop
  else if name = "SIGN".toList then lineN args .sign
  else if name = "RDREG".toList then lineB args asmRegister .rdreg
  else if name = "SYS.RESET".toList then lineN args .sysReset
  else if name = "CRC.BYTES".toList then lineBs args .crcBytes
  else if name = "CRC.OF".toList then lineBs args .crcOf
  else if name = "IMG.BYTES".toList then lineBs args .imgBytes
  else if name = "IMG.FILL".toList then lineCountByte args .imgFill
  else if name = "IMG.LOAD".toList then lineBs args .imgLoad
  else if name = "IMG.UNLOAD".toList then lineB args asmCount .imgUnload
  else .error .unknownMnemonic

/-- One line of text, none where it holds a comment or nothing (R79). -/
def parseLine (text : String) : Except AsmError (Option AsmLine) :=
  match lineWords [] (stripComment text.toList) with
  | [] => .ok none
  | name :: args => parseWords name args

/-- The words of one line of text. -/
def assembleText (text : String) : Except AsmError (List CmdWord) := do
  match ← parseLine text with
  | some l => assembleLine l
  | none => return []

/-- A command stream, read top to bottom (R79). -/
def assemble : List String → Except AsmError (List CmdWord)
  | [] => .ok []
  | t :: ts => do
    let ws ← assembleText t
    let rest ← assemble ts
    return ws ++ rest

end Sys2Proof.Machine
end

