-- ==== Sys2Proof/Safety.lean ====
section
/-! DEFINITION. What holds in every reachable state (10_state.md R41), and what a step may come to from such a state. -/

namespace Sys2Proof

open Machine

/-- The result registers and `ERRVAL` are 0 and `RPTR` is 0: no result stands (R41, the states `ST_IDLE` and
`ST_TOO_SMALL`). -/
def noResult (s : State) : Prop :=
  s.errval = 0 ∧ s.rMagic = 0 ∧ s.rVersion = 0 ∧ s.rSize = 0 ∧ s.rChecksum = 0 ∧ s.rptr = 0

/-- In `ST_SIGNED` the loaded bytes are a signed image and the registers tell its fields (R41). -/
def signedState (s : State) : Prop :=
  ∃ I, s.image = some I ∧ 256 ≤ I.length ∧
    le32 I 0 = 0xDEADBEEF ∧ s.rMagic = 0xDEADBEEF ∧
    s.rVersion = le32 I 4 ∧
    s.rSize = le32 I 8 ∧ s.rSize = s.len - 256 ∧
    s.rChecksum = le32 I 12 ∧ s.rChecksum = crc32 (payload I) ∧
    s.errval = 0

/-- In `ST_BAD_MAGIC` `ERRVAL` holds the wrong magic and no result stands (R41). -/
def badMagicState (s : State) : Prop :=
  ∃ I, s.image = some I ∧ 256 ≤ I.length ∧
    s.errval = le32 I 0 ∧ s.errval ≠ 0xDEADBEEF ∧
    s.rMagic = 0 ∧ s.rVersion = 0 ∧ s.rSize = 0 ∧ s.rChecksum = 0 ∧ s.rptr = 0

/-- What R41 says of the registers in each state of `STATUS`. -/
def statusState (s : State) : Prop :=
  match s.status with
  | .idle => noResult s
  | .signed => signedState s
  | .tooSmall => noResult s
  | .badMagic => badMagicState s

/-- The invariant: the image memory is in canonical form and inside the buffer, every byte below `LEN` has been written,
`RPTR <= LEN <= IMG_CAP`, and the registers are as R41 says for the value of `STATUS`. -/
def BlockInv (s : State) : Prop :=
  Memory.wf s.img = true ∧ Memory.inImage s.img = true ∧ s.image.isSome = true ∧
    s.rptr.toNat ≤ s.len.toNat ∧ s.len.toNat ≤ Config.imgCap ∧ statusState s

/-- `k` steps, stopping at the first fault or refusal. -/
def stepN : Nat → State → Result
  | 0, s => .next s
  | k + 1, s =>
    match step s with
    | .next s' => stepN k s'
    | .fault f => .fault f
    | .refused r => .refused r

/-- The host gives these commands, in this order. -/
def issue (is : List Instr) : List HostEvent := is.map fun i => .command (encode i)

/-- A checksum session (40_crc.md R98): CRC.INIT, then each piece fed byte by byte and followed by a CRC.READ. -/
def crcSession (pieces : List (List Byte)) : List HostEvent :=
  issue (.crcInit :: pieces.flatMap fun p => p.map Instr.crcByte ++ [.crcRead])

/-- A load (41_image_buffer.md R110, R114): IMG.CLEAR, then each byte pushed, lowest offset first. -/
def loadImage (bs : List Byte) : List HostEvent := issue (.imgClear :: bs.map Instr.imgPush)

/-- `n` times IMG.POP (R115). -/
def unload (n : Nat) : List HostEvent := issue (List.replicate n .imgPop)

/-- Two image memories hold the same bytes below an offset. -/
def sameBelow (n : Nat) (m m' : Memory) : Prop := ∀ a, a < n → Memory.read m a = Memory.read m' a

/-- RDREG `n` completes, answers the value and changes nothing else (43_system.md R161). -/
def registerReads (s : State) (n : Byte) (v : Word) : Prop :=
  exec (.rdreg n) s = .next { s with resp := some ⟨.ok, v⟩ }

/-- The loaded image `I` passes both checks of SIGN (42_signer.md R131). -/
def validImage (I : List Byte) : Prop := 256 ≤ I.length ∧ le32 I 0 = 0xDEADBEEF

/-- The step goes on: no fault and no refusal (R57, R170, R221: the block always answers). -/
def safeStep (s : State) : Prop := ∃ t, step s = .next t

end Sys2Proof
end

