-- ==== Sys2Proof/Certificates/Slice0/Obligations.lean ====
section
/-! DEFINITION. The statements for the provers. Each docstring names the rule of spec/ it formalises. A rule that spec/
itself marks as derived is cited by a statement of basis 'derived'. -/

open Sys2Proof Sys2Proof.Machine

/-! ### The CRC-32 generator -/

/-- 40_crc.md R92: CRC.INIT completes in every state, writes `CRC` and answers (OK, 0), and touches nothing else; a second
one changes nothing. -/
def Obligations.CrcInitRestartsSession : Prop :=
  decode 0x1000 = .ok .crcInit ∧
  ∀ s : State,
    exec .crcInit s = .next { s with crc := 0xFFFFFFFF, resp := some ⟨.ok, 0⟩ } ∧
    ∀ t, exec .crcInit s = .next t → exec .crcInit t = .next t

/-- R94: CRC.BYTE completes in every state, from whatever `CRC` holds; the values of its corner cases and of its example;
after reset and after a successful SIGN it continues from the value R42 and R138 give. -/
def Obligations.CrcByteFeedsOneByte : Prop :=
  (∀ b : Byte, decode (0x1100 + b.setWidth 16) = .ok (.crcByte b)) ∧
  (∀ (b : Byte) (s : State),
    exec (.crcByte b) s = .next { s with crc := crcStep s.crc b, resp := some ⟨.ok, 0⟩ }) ∧
  crcStep 0xFFFFFFFF 0x00 = 0x2DFD1072 ∧ crcStep 0 0x00 = 0 ∧ crcStep 0xFFFFFFFF 0xAA = 0x1BFE5A84 ∧
  (0xFFFFFFFF ^^^ 0xAA : Word) = 0xFFFFFF55 ∧
  crcShift 0xFFFFFF55 = 0x92477C8A ∧ crcShift 0x92477C8A = 0x4923BE45 ∧ crcShift 0x4923BE45 = 0xC9295C02 ∧
  crcShift 0xC9295C02 = 0x6494AE01 ∧ crcShift 0x6494AE01 = 0xDFF2D420 ∧ crcShift 0xDFF2D420 = 0x6FF96A10 ∧
  crcShift 0x6FF96A10 = 0x37FCB508 ∧ crcShift 0x37FCB508 = 0x1BFE5A84 ∧
  State.reset.crc = 0xFFFFFFFF ∧
  ∀ (s t : State) (I : List Byte) (b : Byte), s.image = some I → exec .sign s = .next t → t.status = .signed →
    exec (.crcByte b) t =
      .next { t with crc := crcFeed 0xFFFFFFFF (payload I ++ [b]), resp := some ⟨.ok, 0⟩ }

/-- R96: CRC.READ completes in every state, answers `CRC xor 0xFFFFFFFF` and writes nothing; after CRC.INIT or reset it
answers 0; issued twice it answers the same twice; the example. -/
def Obligations.CrcReadAnswersChecksum : Prop :=
  decode 0x1200 = .ok .crcRead ∧
  (∀ s : State, exec .crcRead s = .next { s with resp := some ⟨.ok, s.crc ^^^ 0xFFFFFFFF⟩ }) ∧
  (∀ s t : State, exec .crcRead s = .next t → exec .crcRead t = .next t) ∧
  (∀ s t : State, exec .crcInit s = .next t → exec .crcRead t = .next { t with resp := some ⟨.ok, 0⟩ }) ∧
  exec .crcRead State.reset = .next { State.reset with resp := some ⟨.ok, 0⟩ } ∧
  ∀ s : State, s.crc = 0xAA4BFE58 → exec .crcRead s = .next { s with resp := some ⟨.ok, 0x55B401A7⟩ }

/-- R93: the byte step equals its table form for every register value and byte, with the table the rule prints. -/
def Obligations.CrcStepEqualsTableForm : Prop :=
  crcTable.length = 256 ∧
  (∀ n : Nat, n < 256 → crcTable.getD n 0 = crcStep 0 (BitVec.ofNat 8 n)) ∧
  (∀ (c : Word) (b : Byte),
    crcStep c b = crcTable.getD ((c ^^^ b.setWidth 32).toNat % 256) 0 ^^^ (c >>> 8)) ∧
  crcTable.getD 0 0 = 0x00000000 ∧ crcTable.getD 1 0 = 0x77073096 ∧ crcTable.getD 128 0 = 0xEDB88320 ∧
  crcTable.getD 255 0 = 0x2D02EF8D

/-- R97 (the spec marks it derived): the checksum of no bytes is 0, and SIGN answers it for an image of exactly 256
bytes. -/
def Obligations.EmptyPayloadHasChecksumZero : Prop :=
  crc32 [] = 0 ∧
  ∀ (s : State) (I : List Byte), s.image = some I → I.length = 256 → le32 I 0 = 0xDEADBEEF →
    ∃ t, exec .sign s = .next t ∧ t.resp = some ⟨.ok, 0⟩ ∧ t.rChecksum = 0 ∧ t.rSize = 0 ∧ t.crc = 0xFFFFFFFF

/-- R98 (the spec marks it derived): however a byte sequence is cut into pieces, the CRC.READ after each piece answers the
CRC32 of everything fed since CRC.INIT; feeding X and then Y is feeding X ++ Y; and the order of the bytes matters. -/
def Obligations.SessionChecksumIsIncremental : Prop :=
  (∀ (s : State) (pieces : List (List Byte)) (rest : List HostEvent), pieces ≠ [] →
    s.input = crcSession pieces ++ rest →
    ∃ t, stepN (crcSession pieces).length s = .next t ∧
      t.resp = some ⟨.ok, crc32 pieces.flatten⟩ ∧ t.crc = crcFeed 0xFFFFFFFF pieces.flatten ∧ t.input = rest) ∧
  (∀ X Y : List Byte, crcFeed (crcFeed 0xFFFFFFFF X) Y = crcFeed 0xFFFFFFFF (X ++ Y)) ∧
  ∃ X : List Byte, crc32 X ≠ crc32 X.reverse

/-- R99: the bit reversal of the polynomial and its exponents (the spec marks this derived), and the check value of
`31 … 39` (the spec marks it as general knowledge; 93 G2, log 9). -/
def Obligations.PolynomialAndCheckValue : Prop :=
  (∀ i : Nat, i < 32 →
    (0xEDB88320 : Word).getLsbD i = (0x04C11DB7 : Word).getLsbD (31 - i)) ∧
  0x04C11DB7 = 2^26 + 2^23 + 2^22 + 2^16 + 2^12 + 2^11 + 2^10 + 2^8 + 2^7 + 2^5 + 2^4 + 2^2 + 2^1 + 2^0 ∧
  Config.crcPoly = 0xEDB88320 ∧
  crc32 [0x31, 0x32, 0x33, 0x34, 0x35, 0x36, 0x37, 0x38, 0x39] = 0xCBF43926

/-! ### The image buffer -/

/-- 41_image_buffer.md R111: IMG.CLEAR completes in every state with exactly these writes, and apart from SYS.RESET it is
the only command that leaves `ST_SIGNED`, `ST_TOO_SMALL` or `ST_BAD_MAGIC` for `ST_IDLE`. -/
def Obligations.ImgClearEmptiesBuffer : Prop :=
  decode 0x2000 = .ok .imgClear ∧
  (∀ s : State, exec .imgClear s = .next { s with
      len := 0, rptr := 0, status := .idle, errval := 0, rMagic := 0, rVersion := 0, rSize := 0, rChecksum := 0,
      resp := some ⟨.ok, 0⟩ }) ∧
  ∀ (i : Instr) (s t : State), exec i s = .next t → s.status ≠ .idle → t.status = .idle →
    i = .imgClear ∨ i = .sysReset

/-- R112: an accepted push writes `IMG[LEN]` and adds one to `LEN` without wrap, and changes nothing else; the two
refusals, in their order, change nothing. -/
def Obligations.ImgPushAppendsOrRefuses : Prop :=
  (∀ b : Byte, decode (0x2100 + b.setWidth 16) = .ok (.imgPush b)) ∧
  (∀ (b : Byte) (s : State), s.status = .idle → s.len.toNat < Config.imgCap →
    ∃ t, exec (.imgPush b) s = .next t ∧
      t = { s with img := t.img, len := s.len + 1, resp := some ⟨.ok, 0⟩ } ∧
      t.len.toNat = s.len.toNat + 1 ∧
      Memory.read t.img s.len.toNat = some b ∧
      ∀ a, a ≠ s.len.toNat → Memory.read t.img a = Memory.read s.img a) ∧
  (∀ (b : Byte) (s : State), s.status ≠ .idle →
    exec (.imgPush b) s = .next { s with resp := some ⟨.seqError, 0⟩ }) ∧
  (∀ (b : Byte) (s : State), s.status = .idle → s.len.toNat = Config.imgCap →
    exec (.imgPush b) s = .next { s with resp := some ⟨.imgFull, 0⟩ })

/-- R113: an accepted pop answers `IMG[RPTR]` and adds one to `RPTR`, and changes nothing else; the two refusals, in their
order, change nothing. -/
def Obligations.ImgPopDeliversOrRefuses : Prop :=
  decode 0x2200 = .ok .imgPop ∧
  (∀ (s : State) (v : Byte), s.status = .signed → s.rptr.toNat < s.len.toNat →
    Memory.read s.img s.rptr.toNat = some v →
    exec .imgPop s = .next { s with rptr := s.rptr + 1, resp := some ⟨.ok, v.setWidth 32⟩ } ∧
    (s.rptr + 1).toNat = s.rptr.toNat + 1) ∧
  (∀ s : State, s.status ≠ .signed → exec .imgPop s = .next { s with resp := some ⟨.noOutput, 0⟩ }) ∧
  (∀ s : State, s.status = .signed → s.rptr = s.len →
    exec .imgPop s = .next { s with resp := some ⟨.endOfImage, 0⟩ })

/-- R110: the table of the transitions of `ST`, for every command and for the hardware reset, and where IMG.PUSH and
IMG.POP are accepted. -/
def Obligations.StatusTransitions : Prop :=
  (∀ (i : Instr) (s t : State), exec i s = .next t →
    (i = .imgClear → t.status = .idle) ∧
    (i = .sysReset → t.status = .idle) ∧
    (i = .sign → s.len.toNat < 256 → t.status = .tooSmall) ∧
    (∀ m, i = .sign → 256 ≤ s.len.toNat → s.memRead4 0 = .ok m → m ≠ 0xDEADBEEF → t.status = .badMagic) ∧
    (i = .sign → 256 ≤ s.len.toNat → s.memRead4 0 = .ok 0xDEADBEEF → t.status = .signed) ∧
    (i ≠ .imgClear → i ≠ .sysReset → i ≠ .sign → t.status = s.status) ∧
    (∀ b d, i = .imgPush b → t.resp = some ⟨.ok, d⟩ → s.status = .idle) ∧
    (∀ d, i = .imgPop → t.resp = some ⟨.ok, d⟩ → s.status = .signed)) ∧
  ∀ (s : State) (rest : List HostEvent), s.input = .reset :: rest → ∃ t, step s = .next t ∧ t.status = .idle

/-- R114 (the spec marks it derived): after IMG.CLEAR and the accepted pushes of a list of bytes, `LEN` is its length and
the image is the list. -/
def Obligations.LoadedImageIsWhatWasPushed : Prop :=
  ∀ (s : State) (bs : List Byte) (rest : List HostEvent), bs.length ≤ Config.imgCap →
    s.input = loadImage bs ++ rest →
    ∃ t, stepN (bs.length + 1) s = .next t ∧ t.len.toNat = bs.length ∧ t.image = some bs ∧
      t.status = .idle ∧ t.crc = s.crc ∧ t.resp = some ⟨.ok, 0⟩ ∧ t.input = rest

/-- R115 (the spec marks it derived): in `ST_SIGNED` with `RPTR` = 0, pops deliver the image byte by byte and the pop after
the last one answers END_OF_IMAGE. -/
def Obligations.UnloadDeliversImage : Prop :=
  ∀ (s : State) (I : List Byte), s.status = .signed → s.rptr = 0 → s.image = some I →
    s.input = unload (I.length + 1) →
    (∀ k, k < I.length → ∃ t, stepN (k + 1) s = .next t ∧ t.resp = some ⟨.ok, (I.getD k 0).setWidth 32⟩) ∧
    ∃ t, stepN (I.length + 1) s = .next t ∧ t.resp = some ⟨.endOfImage, 0⟩ ∧ t.img = s.img ∧ t.len = s.len

/-- R110, R115, R133: from any state at all, loading a byte sequence that `sign` accepts, SIGN, and as many pops as bytes
deliver exactly `sign` of the sequence, and one pop more answers END_OF_IMAGE. -/
def Obligations.LoadSignUnloadDeliversContract : Prop :=
  ∀ (s : State) (I O : List Byte), I.length ≤ Config.imgCap → signImage I = .ok O →
    s.input = loadImage I ++ issue [.sign] ++ unload (I.length + 1) →
    (∃ t, stepN (I.length + 2) s = .next t ∧ t.resp = some ⟨.ok, crc32 (payload I)⟩) ∧
    (∀ k, k < I.length →
      ∃ t, stepN (I.length + 2 + (k + 1)) s = .next t ∧ t.resp = some ⟨.ok, (O.getD k 0).setWidth 32⟩) ∧
    ∃ t, stepN (I.length + 2 + (I.length + 1)) s = .next t ∧ t.resp = some ⟨.endOfImage, 0⟩

/-! ### The signer -/

/-- 42_signer.md R132: what SIGN leaves in each of its three outcomes, every register and every byte; the source's
example. -/
def Obligations.SignThreeOutcomes : Prop :=
  decode 0x3000 = .ok .sign ∧
  (∀ s : State, s.len.toNat < 256 → exec .sign s = .next { s with
      rptr := 0, errval := 0, rMagic := 0, rVersion := 0, rSize := 0, rChecksum := 0,
      status := .tooSmall, resp := some ⟨.imageTooSmall, 0⟩ }) ∧
  (∀ (s : State) (I : List Byte), s.image = some I → 256 ≤ I.length → le32 I 0 ≠ 0xDEADBEEF →
    exec .sign s = .next { s with
      rptr := 0, errval := le32 I 0, rMagic := 0, rVersion := 0, rSize := 0, rChecksum := 0,
      status := .badMagic, resp := some ⟨.invalidMagic, le32 I 0⟩ }) ∧
  (∀ (s : State) (I : List Byte), s.image = some I → 256 ≤ I.length → le32 I 0 = 0xDEADBEEF →
    ∃ t, exec .sign s = .next t ∧
      t = { s with
        rptr := 0, errval := 0, rMagic := 0xDEADBEEF, rVersion := le32 I 4, rSize := s.len - 256,
        rChecksum := crc32 (payload I), crc := crcFeed 0xFFFFFFFF (payload I), img := t.img,
        status := .signed, resp := some ⟨.ok, crc32 (payload I)⟩ } ∧
      ∀ a, Memory.read t.img a =
        if 8 ≤ a ∧ a < 12 then some (((s.len - 256) >>> (8 * (a - 8))).setWidth 8)
        else if 12 ≤ a ∧ a < 16 then some ((crc32 (payload I) >>> (8 * (a - 12))).setWidth 8)
        else Memory.read s.img a) ∧
  ∀ s : State,
    s.image = some ([0xEF, 0xBE, 0xAD, 0xDE, 0x01, 0x00, 0x00, 0x00] ++ List.replicate 248 0x00 ++
      [0xAA, 0xBB, 0xCC, 0xDD]) →
    ∃ t, exec .sign s = .next t ∧ t.resp = some ⟨.ok, 0x55B401A7⟩ ∧ t.rVersion = 1 ∧ t.rSize = 4 ∧
      t.crc = 0xAA4BFE58 ∧
      t.image = some ([0xEF, 0xBE, 0xAD, 0xDE, 0x01, 0x00, 0x00, 0x00, 0x04, 0x00, 0x00, 0x00, 0xA7, 0x01, 0xB4,
        0x55] ++ List.replicate 240 0x00 ++ [0xAA, 0xBB, 0xCC, 0xDD])

/-- R133 (the spec marks it derived): SIGN carries out the function `sign` of R131 on the loaded image. -/
def Obligations.SignRefinesContract : Prop :=
  ∀ (s : State) (I : List Byte), s.image = some I →
    ∃ t, exec .sign s = .next t ∧ t.len = s.len ∧
      match signImage I with
      | .ok O => t.image = some O ∧ t.status = .signed ∧ t.resp = some ⟨.ok, crc32 (payload I)⟩
      | .error .imageTooSmall => t.img = s.img ∧ t.status = .tooSmall ∧ t.resp = some ⟨.imageTooSmall, 0⟩
      | .error (.invalidMagic m) =>
        t.img = s.img ∧ t.status = .badMagic ∧ t.errval = m ∧ t.resp = some ⟨.invalidMagic, m⟩

/-- R134 and 20_memory.md R59: SIGN fails with `ImageTooSmall` exactly when L < 256, any length from 256 up is accepted,
and the payload is empty only when L = 256; its size is then 0 and its checksum 0. -/
def Obligations.SignRejectsExactlyShortImages : Prop :=
  (∀ (s : State) (I : List Byte), s.image = some I →
    ∃ t d c, exec .sign s = .next t ∧ t.resp = some ⟨c, d⟩ ∧ (c = .imageTooSmall ↔ I.length < 256)) ∧
  (∀ (s : State) (I : List Byte), s.image = some I → le32 I 0 = 0xDEADBEEF → 256 ≤ I.length →
    ∃ t d, exec .sign s = .next t ∧ t.resp = some ⟨.ok, d⟩ ∧ t.status = .signed ∧
      (payload I).length = I.length - 256 ∧ (payload I = [] ↔ I.length = 256) ∧
      (I.length = 256 → d = 0 ∧ t.rSize = 0))

/-- R135: with L >= 256 SIGN fails with `InvalidMagic` exactly when the little-endian value of bytes 0 to 3 is not
0xDEADBEEF, whatever the other bytes, and carries the value; the bytes `DE AD BE EF` read as 0xEFBEADDE. -/
def Obligations.SignRejectsExactlyWrongMagic : Prop :=
  (∀ (s : State) (I : List Byte), s.image = some I → 256 ≤ I.length →
    ∃ t c d, exec .sign s = .next t ∧ t.resp = some ⟨c, d⟩ ∧
      (c = .invalidMagic ↔
        (I.getD 0 0).toNat + 2^8 * (I.getD 1 0).toNat + 2^16 * (I.getD 2 0).toNat + 2^24 * (I.getD 3 0).toNat
          ≠ 0xDEADBEEF) ∧
      (c = .invalidMagic → d = le32 I 0 ∧ t.errval = d)) ∧
  ∀ (s : State) (I : List Byte), s.image = some ([0xDE, 0xAD, 0xBE, 0xEF] ++ I) → 252 ≤ I.length →
    ∃ t, exec .sign s = .next t ∧ t.resp = some ⟨.invalidMagic, 0xEFBEADDE⟩

/-- R136 and 60_exceptions.md R177: the order of the tests. An illegal word answers ILLEGAL_CMD whatever the state, IMG.PUSH
tests SEQ_ERROR before IMG_FULL, IMG.POP NO_OUTPUT before END_OF_IMAGE, SIGN the length before the magic. -/
def Obligations.TestsRunInOrder : Prop :=
  (∀ (s : State) (w : CmdWord) (rest : List HostEvent) (e : Illegal),
    s.input = .command w :: rest → decode w = .error e →
    ∃ t, step s = .next t ∧ t.resp = some ⟨.illegalCmd, 0⟩) ∧
  (∀ (s : State) (b : Byte), s.status ≠ .idle → s.len.toNat = Config.imgCap →
    ∃ t, exec (.imgPush b) s = .next t ∧ t.resp = some ⟨.seqError, 0⟩) ∧
  (∀ s : State, s.status ≠ .signed → s.rptr = s.len →
    ∃ t, exec .imgPop s = .next t ∧ t.resp = some ⟨.noOutput, 0⟩) ∧
  (∀ (s : State) (m : Word), s.len.toNat < 256 → s.memRead4 0 = .ok m → m ≠ 0xDEADBEEF →
    ∃ t, exec .sign s = .next t ∧ t.resp = some ⟨.imageTooSmall, 0⟩ ∧ t.errval = 0) ∧
  (∀ (s : State) (n : Byte), ∃ t c d, exec (.rdreg n) s = .next t ∧ t.resp = some ⟨c, d⟩ ∧ (c = .ok ∨ c = .badReg))

/-- R137: the version is any value: it decides nothing, is published in `R_VERSION`, and bytes 4 to 7 are never
written. -/
def Obligations.VersionIsOpaque : Prop :=
  ∀ (s s' : State) (I : List Byte) (v : Word), s.image = some I → 256 ≤ I.length →
    s'.image = some (putLe32 I 4 v) →
    ∃ t t', exec .sign s = .next t ∧ exec .sign s' = .next t' ∧ t'.resp = t.resp ∧ t'.status = t.status ∧
      t'.errval = t.errval ∧ t'.rSize = t.rSize ∧ t'.rChecksum = t.rChecksum ∧
      (t'.status = .signed → t'.rVersion = v ∧ t.rVersion = le32 I 4) ∧
      ∀ a, 4 ≤ a → a < 8 → Memory.read t'.img a = Memory.read s'.img a

/-- R138: after a success `CRC` holds the raw remainder of bytes 256 to L - 1, a CRC.READ answers the same checksum, and
the checksum does not depend on the header and the padding; after a failure `CRC` is unchanged. -/
def Obligations.SignChecksumCoversPayloadOnly : Prop :=
  (∀ (s : State) (I : List Byte), s.image = some I → validImage I →
    ∃ t u, exec .sign s = .next t ∧ t.crc = crcFeed 0xFFFFFFFF (I.drop 256) ∧
      exec .crcRead t = .next u ∧ u.resp = t.resp ∧ u.resp = some ⟨.ok, t.rChecksum⟩) ∧
  (∀ (s s' t t' : State) (I J : List Byte), s.image = some I → s'.image = some J → validImage I → validImage J →
    I.drop 256 = J.drop 256 → exec .sign s = .next t → exec .sign s' = .next t' →
    t'.rChecksum = t.rChecksum ∧ t'.resp = t.resp ∧ t'.crc = t.crc) ∧
  ∀ s t : State, exec .sign s = .next t → t.status ≠ .signed → t.crc = s.crc

/-- R139: the size field is L - 256 as a number, in `R_SIZE` and little-endian in bytes 8 to 11. -/
def Obligations.SignSizeIsPayloadLength : Prop :=
  ∀ (s : State) (I : List Byte), s.image = some I → validImage I →
    ∃ t O, exec .sign s = .next t ∧ t.rSize.toNat = I.length - 256 ∧ t.image = some O ∧
      (O.getD 8 0).toNat + 2^8 * (O.getD 9 0).toNat + 2^16 * (O.getD 10 0).toNat + 2^24 * (O.getD 11 0).toNat =
        I.length - 256

/-- R140: what SIGN answers and leaves is a function of the loaded image alone, and the old bytes 8 to 15 are never
read. -/
def Obligations.SignIsPure : Prop :=
  (∀ (s s' : State) (I : List Byte), s.image = some I → s'.image = some I →
    ∃ t t', exec .sign s = .next t ∧ exec .sign s' = .next t' ∧ t'.resp = t.resp ∧ t'.status = t.status ∧
      t'.errval = t.errval ∧ t'.rptr = t.rptr ∧ t'.rMagic = t.rMagic ∧ t'.rVersion = t.rVersion ∧
      t'.rSize = t.rSize ∧ t'.rChecksum = t.rChecksum ∧ t'.image = t.image) ∧
  ∀ (s s' : State) (I : List Byte) (x y : Word), s.image = some I → 256 ≤ I.length →
    s'.image = some (putLe32 (putLe32 I 8 x) 12 y) →
    ∃ t t', exec .sign s = .next t ∧ exec .sign s' = .next t' ∧ t'.resp = t.resp ∧ t'.status = t.status ∧
      t'.errval = t.errval ∧ t'.rMagic = t.rMagic ∧ t'.rVersion = t.rVersion ∧
      t'.rSize = t.rSize ∧ t'.rChecksum = t.rChecksum ∧ (t.status = .signed → t'.image = t.image)

/-- R142 and 20_memory.md R63: whatever the outcome, SIGN leaves every byte outside 8 to 15 as it was, and so does the
function `sign`; and no byte of 16 to 255 (the reserved region and the padding) decides anything. -/
def Obligations.SignPassesOtherBytesThrough : Prop :=
  (∀ (s t : State) (a : Nat), exec .sign s = .next t → a < 8 ∨ 16 ≤ a →
    Memory.read t.img a = Memory.read s.img a) ∧
  (∀ (I O : List Byte), signImage I = .ok O → O.length = I.length ∧ ∀ k, k < 8 ∨ 16 ≤ k → O[k]? = I[k]?) ∧
  ∀ (s s' : State) (I J : List Byte), s.image = some I → s'.image = some J → 256 ≤ I.length →
    J.length = I.length → J.take 16 = I.take 16 → J.drop 256 = I.drop 256 →
    ∃ t t', exec .sign s = .next t ∧ exec .sign s' = .next t' ∧ t'.resp = t.resp ∧ t'.status = t.status ∧
      t'.errval = t.errval ∧ t'.rMagic = t.rMagic ∧ t'.rVersion = t.rVersion ∧ t'.rSize = t.rSize ∧
      t'.rChecksum = t.rChecksum ∧ (t.status = .signed → t'.crc = t.crc) ∧
      ∀ a, a < 16 → Memory.read t'.img a = Memory.read t.img a

/-- R143 (the spec marks it derived): SIGN twice is SIGN once, in success and in failure; and `sign(sign(I))` is
`sign(I)`, also for lists of 2^32 bytes and more, where `sign` is the model's choice (log 8). -/
def Obligations.SignIsIdempotent : Prop :=
  (∀ s t : State, exec .sign s = .next t → exec .sign t = .next t) ∧
  ∀ I O : List Byte, signImage I = .ok O → signImage O = .ok O

/-- R144: a failed SIGN writes `STATUS`, `ERRVAL`, `RPTR` and the zeroed result registers and nothing else, `ERRVAL` only
for the magic, and IMG.POP is then refused. -/
def Obligations.SignFailureIsClean : Prop :=
  ∀ s t : State, exec .sign s = .next t → t.status ≠ .signed →
    t = { s with
      rptr := 0, errval := t.errval, rMagic := 0, rVersion := 0, rSize := 0, rChecksum := 0,
      status := t.status, resp := t.resp } ∧
    (t.status = .tooSmall ∧ t.errval = 0 ∨ t.status = .badMagic) ∧
    exec .imgPop t = .next { t with resp := some ⟨.noOutput, 0⟩ }

/-- R145 (the spec marks it derived): on an image that passes both checks SIGN answers what CRC.INIT, a CRC.BYTE for each
payload byte and CRC.READ answer, and leaves the same `CRC`. -/
def Obligations.SignAgreesWithCrcCommands : Prop :=
  ∀ (s s' : State) (I : List Byte) (rest : List HostEvent), s.image = some I → validImage I →
    s'.input = crcSession [payload I] ++ rest →
    ∃ t t', exec .sign s = .next t ∧ stepN (I.length - 256 + 2) s' = .next t' ∧
      t'.resp = t.resp ∧ t'.crc = t.crc ∧ t'.input = rest

/-- R146: on success the answer is the checksum, the four values stand in the result registers, and every command but
SIGN, IMG.CLEAR and SYS.RESET keeps them. -/
def Obligations.ResultsStayReadable : Prop :=
  (∀ (s : State) (I : List Byte), s.image = some I → validImage I →
    ∃ t, exec .sign s = .next t ∧ t.resp = some ⟨.ok, crc32 (payload I)⟩ ∧
      registerReads t 0x04 0xDEADBEEF ∧ registerReads t 0x05 (le32 I 4) ∧
      registerReads t 0x06 (BitVec.ofNat 32 (I.length - 256)) ∧ registerReads t 0x07 (crc32 (payload I))) ∧
  ∀ (i : Instr) (s t : State), exec i s = .next t → i ≠ .sign → i ≠ .imgClear → i ≠ .sysReset →
    t.rMagic = s.rMagic ∧ t.rVersion = s.rVersion ∧ t.rSize = s.rSize ∧ t.rChecksum = s.rChecksum

/-- 20_memory.md R55 (the spec marks it derived): a 4-byte field that SIGN wrote is popped lowest byte first. -/
def Obligations.FieldsArePoppedLowestByteFirst : Prop :=
  ∀ (s : State) (I : List Byte) (k : Nat), s.image = some I → validImage I → k < 4 →
    ∃ t, exec .sign s = .next t ∧
      (∃ u, exec .imgPop { t with rptr := BitVec.ofNat 32 (8 + k) } = .next u ∧
        u.resp = some ⟨.ok, (t.rSize >>> (8 * k)) &&& 0xFF⟩) ∧
      (∃ u, exec .imgPop { t with rptr := BitVec.ofNat 32 (12 + k) } = .next u ∧
        u.resp = some ⟨.ok, (t.rChecksum >>> (8 * k)) &&& 0xFF⟩)

/-! ### Registers and reset -/

/-- 43_system.md R161: RDREG of each register number answers the register, a reserved number answers BAD_REG, and neither
changes any other state. -/
def Obligations.RdregReadsRegisterMap : Prop :=
  (∀ n : Byte, decode (0x4000 + n.setWidth 16) = .ok (.rdreg n)) ∧
  (∀ s : State,
    (s.status = .idle → registerReads s 0x00 0) ∧ (s.status = .signed → registerReads s 0x00 1) ∧
    (s.status = .tooSmall → registerReads s 0x00 2) ∧ (s.status = .badMagic → registerReads s 0x00 3) ∧
    registerReads s 0x01 s.len ∧ registerReads s 0x02 s.rptr ∧ registerReads s 0x03 s.errval ∧
    registerReads s 0x04 s.rMagic ∧ registerReads s 0x05 s.rVersion ∧ registerReads s 0x06 s.rSize ∧
    registerReads s 0x07 s.rChecksum ∧
    registerReads s 0x10 0xDEADBEEF ∧ registerReads s 0x11 32 ∧ registerReads s 0x12 256 ∧
    registerReads s 0x13 256 ∧ registerReads s 0x14 (BitVec.ofNat 32 Config.imgCap)) ∧
  ∀ (s : State) (n : Byte), (0x08 ≤ n.toNat ∧ n.toNat ≤ 0x0F) ∨ 0x15 ≤ n.toNat →
    exec (.rdreg n) s = .next { s with resp := some ⟨.badReg, 0⟩ }

/-- R162 (the spec marks it derived): what the host reads after each outcome of SIGN. -/
def Obligations.RegistersTellSignOutcome : Prop :=
  ∀ (s : State) (I : List Byte), s.image = some I →
    ∃ t, exec .sign s = .next t ∧
      (validImage I →
        registerReads t 0x00 1 ∧ registerReads t 0x03 0 ∧ registerReads t 0x04 0xDEADBEEF ∧
        registerReads t 0x05 (le32 I 4) ∧ registerReads t 0x06 (s.len - 256) ∧
        registerReads t 0x07 (crc32 (payload I))) ∧
      (I.length < 256 →
        registerReads t 0x00 2 ∧ registerReads t 0x03 0 ∧ registerReads t 0x04 0 ∧ registerReads t 0x05 0 ∧
        registerReads t 0x06 0 ∧ registerReads t 0x07 0) ∧
      (256 ≤ I.length → le32 I 0 ≠ 0xDEADBEEF →
        registerReads t 0x00 3 ∧ registerReads t 0x03 (le32 I 0) ∧ registerReads t 0x04 0 ∧
        registerReads t 0x05 0 ∧ registerReads t 0x06 0 ∧ registerReads t 0x07 0)

/-- R163: SYS.RESET completes in every state with exactly these writes, equals IMG.CLEAR followed by CRC.INIT, and right
after reset changes nothing but the response. -/
def Obligations.SysResetRestoresResetState : Prop :=
  decode 0xF000 = .ok .sysReset ∧
  (∀ s : State, exec .sysReset s = .next { State.reset with
      img := s.img, input := s.input, resp := some ⟨.ok, 0⟩ }) ∧
  (∀ s : State, ∃ t u, exec .imgClear s = .next t ∧ exec .crcInit t = .next u ∧ exec .sysReset s = .next u) ∧
  exec .sysReset State.reset = .next { State.reset with resp := some ⟨.ok, 0⟩ }

/-- 10_state.md R42 and 70_reset_and_hazards.md R200: the values after reset, the same after the hardware reset and after
SYS.RESET, from every state. The response the hardware reset leaves is the model's choice (log 6) and is not stated. -/
def Obligations.ResetLeavesResetValues : Prop :=
  State.reset.crc = 0xFFFFFFFF ∧ State.reset.len = 0 ∧ State.reset.rptr = 0 ∧
  SignStatus.word State.reset.status = 0 ∧ State.reset.errval = 0 ∧ State.reset.rMagic = 0 ∧
  State.reset.rVersion = 0 ∧ State.reset.rSize = 0 ∧ State.reset.rChecksum = 0 ∧
  ∀ (s : State) (e : HostEvent) (rest : List HostEvent), s.input = e :: rest →
    e = .reset ∨ e = .command 0xF000 →
    ∃ t, step s = .next t ∧ t.crc = 0xFFFFFFFF ∧ t.len = 0 ∧ t.rptr = 0 ∧ t.status = .idle ∧ t.errval = 0 ∧
      t.rMagic = 0 ∧ t.rVersion = 0 ∧ t.rSize = 0 ∧ t.rChecksum = 0 ∧ t.input = rest

/-- R202 (the spec marks it derived): what the first command after reset does; any command may be the first (R201). -/
def Obligations.FirstCommandAfterReset : Prop :=
  (∀ i : Instr, ∃ t, exec i State.reset = .next t) ∧
  exec .crcRead State.reset = .next { State.reset with resp := some ⟨.ok, 0⟩ } ∧
  (∀ b : Byte, ∃ t u, exec (.crcByte b) State.reset = .next t ∧ exec .crcInit State.reset = .next u ∧
    exec (.crcByte b) u = .next t) ∧
  exec .sign State.reset =
    .next { State.reset with status := .tooSmall, resp := some ⟨.imageTooSmall, 0⟩ } ∧
  exec .imgPop State.reset = .next { State.reset with resp := some ⟨.noOutput, 0⟩ } ∧
  (∀ b : Byte, ∃ t, exec (.imgPush b) State.reset = .next t ∧ t.resp = some ⟨.ok, 0⟩ ∧ t.image = some [b]) ∧
  ∀ n : Byte, n.toNat < 0x08 → registerReads State.reset n 0

/-! ### Encoding and the step -/

/-- 30_encoding.md R73, R74: decoding and encoding agree on every word and every command, operand bytes included. -/
def Obligations.DecodeAndEncodeAgree : Prop :=
  ∀ (w : CmdWord) (i : Instr), decode w = .ok i ↔ (i.wellFormed = true ∧ encode i = w)

/-- R73, R74: every word selects at most one row of the printed table, the decoder answers the command of that row, and a
word that selects none is illegal. -/
def Obligations.DecoderFollowsOpcodeTable : Prop :=
  ∀ w : CmdWord,
    (∃ r i, rowsSelected w = [r] ∧ decode w = .ok i ∧ mnemonic i = r.mnemonic) ∨
    (∃ e, rowsSelected w = [] ∧ decode w = .error e)

/-- R75: the illegal words are exactly those of the rule's list; all but 6 + 3 * 256 of the 65536 words are illegal, that
is 64762; the block answers each ILLEGAL_CMD and changes no state. -/
def Obligations.IllegalWordsExactly : Prop :=
  (∀ w : CmdWord, (∃ e, decode w = .error e) ↔
    (let g := w.toNat / 4096
     let f := w.toNat / 256 % 16
     let o := w.toNat % 256
     g = 0x0 ∨ (0x5 ≤ g ∧ g ≤ 0xE) ∨
     ((g = 0x1 ∨ g = 0x2) ∧ 0x3 ≤ f) ∨
     ((g = 0x3 ∨ g = 0x4 ∨ g = 0xF) ∧ 0x1 ≤ f) ∨
     (((g = 0x1 ∨ g = 0x2) ∧ (f = 0x0 ∨ f = 0x2) ∨ (g = 0x3 ∨ g = 0xF) ∧ f = 0x0) ∧ o ≠ 0))) ∧
  (∃ legal : List CmdWord, legal.Nodup ∧ legal.length = 6 + 3 * 256 ∧ 65536 - legal.length = 64762 ∧
    ∀ w : CmdWord, w ∈ legal ↔ ¬ ∃ e, decode w = .error e) ∧
  ∀ (s : State) (w : CmdWord) (rest : List HostEvent) (e : Illegal),
    s.input = .command w :: rest → decode w = .error e →
    step s = .next { s with input := rest, resp := some ⟨.illegalCmd, 0⟩ }

/-- The decode vectors of 95_test_vectors.md section 2.3, words written out from R73. -/
def Obligations.SampleWordsDecode : Prop :=
  decode 0x1000 = .ok .crcInit ∧ decode 0x11AA = .ok (.crcByte 0xAA) ∧ decode 0x1200 = .ok .crcRead ∧
  decode 0x2000 = .ok .imgClear ∧ decode 0x21EF = .ok (.imgPush 0xEF) ∧ decode 0x2200 = .ok .imgPop ∧
  decode 0x3000 = .ok .sign ∧ decode 0x4014 = .ok (.rdreg 0x14) ∧ decode 0x40FF = .ok (.rdreg 0xFF) ∧
  decode 0xF000 = .ok .sysReset ∧
  decode 0x0000 = .error .unassignedGroup ∧ decode 0xFFFF = .error .unassignedFunction ∧
  decode 0x5000 = .error .unassignedGroup ∧ decode 0x1300 = .error .unassignedFunction ∧
  decode 0x4100 = .error .unassignedFunction ∧ decode 0x1001 = .error .operandNotZero ∧
  decode 0x3080 = .error .operandNotZero

/-- R70, R74, R78: when the next thing the host does is to give a word that decodes to `i`, the step is `exec i` on the
state with that word taken from the port, and `exec` leaves the rest of the port alone. Also (the model's own
arrangement, log 1) a step with nothing on the port changes nothing. -/
def Obligations.StepRunsDecodedCommand : Prop :=
  (∀ (s : State) (w : CmdWord) (rest : List HostEvent) (i : Instr),
    s.input = .command w :: rest → decode w = .ok i → step s = exec i { s with input := rest }) ∧
  (∀ (i : Instr) (s t : State), exec i s = .next t → t.input = s.input) ∧
  ∀ s : State, s.input = [] → step s = .next s

/-- 30_encoding.md R80: the six pseudo-instructions, for operands that are bytes; an empty list expands to no command. -/
def Obligations.PseudoInstructionsExpand : Prop :=
  (∀ bs : List Byte,
    assembleLine (.crcBytes (bs.map BitVec.toNat)) = .ok (bs.map fun b => encode (.crcByte b)) ∧
    assembleLine (.crcOf (bs.map BitVec.toNat)) =
      .ok ([0x1000] ++ (bs.map fun b => encode (.crcByte b)) ++ [0x1200]) ∧
    assembleLine (.imgBytes (bs.map BitVec.toNat)) = .ok (bs.map fun b => encode (.imgPush b)) ∧
    assembleLine (.imgLoad (bs.map BitVec.toNat)) = .ok ([0x2000] ++ bs.map fun b => encode (.imgPush b))) ∧
  (∀ (n : Nat) (b : Byte), assembleLine (.imgFill n b.toNat) = .ok (List.replicate n (encode (.imgPush b)))) ∧
  (∀ n : Nat, assembleLine (.imgUnload n) = .ok (List.replicate n 0x2200)) ∧
  assembleLine (.crcBytes []) = .ok [] ∧ assembleLine (.imgBytes []) = .ok []

/-- R79: the examples of the rule, a comment, a decimal operand, and a register by name. -/
def Obligations.AssemblerExamples : Prop :=
  assembleText "CRC.BYTE 0xAA" = .ok [0x11AA] ∧ assembleText "IMG.PUSH 0xEF" = .ok [0x21EF] ∧
  assembleText "RDREG 0x07" = .ok [0x4007] ∧ assembleText "SIGN" = .ok [0x3000] ∧
  assembleText "RDREG R_CHECKSUM" = .ok [0x4007] ∧ assembleText "CRC.BYTE 170 ; a byte" = .ok [0x11AA] ∧
  assembleText "; nothing" = .ok []

/-! ### Responses, frames, invariants -/

/-- 60_exceptions.md R171: every command word that is answered gets one response; each code is given by its command under
exactly its condition, with its datum and its state change; the codes' numbers, with 7 and 10 to 15 never produced; and
the five commands that never answer anything but OK. -/
def Obligations.ResponseCodesTable : Prop :=
  (∀ (s t : State) (w : CmdWord) (rest : List HostEvent), s.input = .command w :: rest → step s = .next t →
    ∃ c d, t.resp = some ⟨c, d⟩ ∧
      (c = .illegalCmd ↔ ∃ e, decode w = .error e) ∧
      (c = .badReg ↔ ∃ n, decode w = .ok (.rdreg n) ∧ ¬ (n.toNat ≤ 0x07 ∨ 0x10 ≤ n.toNat ∧ n.toNat ≤ 0x14)) ∧
      (c = .seqError ↔ (∃ b, decode w = .ok (.imgPush b)) ∧ s.status ≠ .idle) ∧
      (c = .imgFull ↔ (∃ b, decode w = .ok (.imgPush b)) ∧ s.status = .idle ∧ s.len.toNat = Config.imgCap) ∧
      (c = .noOutput ↔ decode w = .ok .imgPop ∧ s.status ≠ .signed) ∧
      (c = .endOfImage ↔ decode w = .ok .imgPop ∧ s.status = .signed ∧ s.rptr = s.len) ∧
      (c = .imageTooSmall ↔ decode w = .ok .sign ∧ s.len.toNat < 256) ∧
      (c = .invalidMagic ↔
        decode w = .ok .sign ∧ 256 ≤ s.len.toNat ∧ ∃ m, s.memRead4 0 = .ok m ∧ m ≠ 0xDEADBEEF) ∧
      (c ≠ .ok → c ≠ .imageTooSmall → c ≠ .invalidMagic → d = 0 ∧ t = { s with input := rest, resp := t.resp }) ∧
      (c = .imageTooSmall → d = 0 ∧ t = { s with
          input := rest, resp := t.resp, status := .tooSmall, rptr := 0, errval := 0,
          rMagic := 0, rVersion := 0, rSize := 0, rChecksum := 0 }) ∧
      (c = .invalidMagic → s.memRead4 0 = .ok d ∧ t = { s with
          input := rest, resp := t.resp, status := .badMagic, rptr := 0, errval := d,
          rMagic := 0, rVersion := 0, rSize := 0, rChecksum := 0 }) ∧
      ((decode w = .ok .crcInit ∨ (∃ b, decode w = .ok (.crcByte b)) ∨ decode w = .ok .crcRead ∨
        decode w = .ok .imgClear ∨ decode w = .ok .sysReset) → c = .ok)) ∧
  (RCode.bits .ok = 0 ∧ RCode.bits .illegalCmd = 1 ∧ RCode.bits .badReg = 2 ∧ RCode.bits .seqError = 3 ∧
    RCode.bits .imgFull = 4 ∧ RCode.bits .noOutput = 5 ∧ RCode.bits .endOfImage = 6 ∧
    RCode.bits .imageTooSmall = 8 ∧ RCode.bits .invalidMagic = 9) ∧
  ∀ c : RCode, RCode.bits c ≠ 7 ∧ (RCode.bits c).toNat < 10

/-- R71: a response as one word has `rcode` in bits 35:32 and `rdata` in bits 31:0. -/
def Obligations.ResponseWordLayout : Prop :=
  ∀ r : Response, (Response.word r).extractLsb' 32 4 = RCode.bits r.code ∧ (Response.word r).extractLsb' 0 32 = r.data

/-- R174: SIGN answers OK, IMAGE_TOO_SMALL or INVALID_MAGIC and nothing else, and no other command answers either
error. -/
def Obligations.SignErrorsAreClosed : Prop :=
  ∀ (i : Instr) (s t : State), exec i s = .next t →
    ∃ c d, t.resp = some ⟨c, d⟩ ∧ (i = .sign → c = .ok ∨ c = .imageTooSmall ∨ c = .invalidMagic) ∧
      (i ≠ .sign → c ≠ .imageTooSmall ∧ c ≠ .invalidMagic)

/-- R175: a command answered with one of the six interface refusals changes no state at all. -/
def Obligations.RefusalsChangeNothing : Prop :=
  ∀ (s t : State) (w : CmdWord) (rest : List HostEvent) (c : RCode) (d : Word),
    s.input = .command w :: rest → step s = .next t → t.resp = some ⟨c, d⟩ →
    c = .illegalCmd ∨ c = .badReg ∨ c = .seqError ∨ c = .imgFull ∨ c = .noOutput ∨ c = .endOfImage →
    t = { s with input := rest, resp := some ⟨c, d⟩ }

/-- 20_memory.md R62: CRC.READ and RDREG have no side effect and repeat their answer; an answered IMG.POP advances
`RPTR`. -/
def Obligations.ReadsSideEffects : Prop :=
  (∀ (i : Instr) (s t : State), i = .crcRead ∨ (∃ n, i = .rdreg n) → exec i s = .next t →
    t = { s with resp := t.resp } ∧ exec i t = .next t) ∧
  ∀ (s t : State) (d : Word), exec .imgPop s = .next t → t.resp = some ⟨.ok, d⟩ →
    t = { s with rptr := s.rptr + 1, resp := t.resp }

/-- 10_state.md R20, R28 (the column 'written by'): the frame of every command over every register: only the commands the
table names change a register, and only IMG.PUSH and a successful SIGN change the image memory. -/
def Obligations.OnlyNamedCommandsWrite : Prop :=
  ∀ (i : Instr) (s t : State), exec i s = .next t →
    (t.crc ≠ s.crc → i = .crcInit ∨ (∃ b, i = .crcByte b) ∨ (i = .sign ∧ t.status = .signed) ∨ i = .sysReset) ∧
    (t.img ≠ s.img → (∃ b, i = .imgPush b) ∨ (i = .sign ∧ t.status = .signed)) ∧
    (t.len ≠ s.len → (∃ b, i = .imgPush b) ∨ i = .imgClear ∨ i = .sysReset) ∧
    (t.rptr ≠ s.rptr → i = .imgPop ∨ i = .sign ∨ i = .imgClear ∨ i = .sysReset) ∧
    (t.status ≠ s.status → i = .sign ∨ i = .imgClear ∨ i = .sysReset) ∧
    (t.errval ≠ s.errval → i = .sign ∨ i = .imgClear ∨ i = .sysReset) ∧
    (t.rMagic ≠ s.rMagic → i = .sign ∨ i = .imgClear ∨ i = .sysReset) ∧
    (t.rVersion ≠ s.rVersion → i = .sign ∨ i = .imgClear ∨ i = .sysReset) ∧
    (t.rSize ≠ s.rSize → i = .sign ∨ i = .imgClear ∨ i = .sysReset) ∧
    (t.rChecksum ≠ s.rChecksum → i = .sign ∨ i = .imgClear ∨ i = .sysReset) ∧
    t.input = s.input

/-- The frame of every command over image memory: each offset reads as before, except `LEN` for IMG.PUSH and 8 to 15 for
SIGN (R112, R63). -/
def Obligations.MemoryFrameOfCommands : Prop :=
  ∀ (i : Instr) (s t : State) (a : Nat), exec i s = .next t →
    (∀ b, i = .imgPush b → a ≠ s.len.toNat) → (i = .sign → a < 8 ∨ 16 ≤ a) →
    Memory.read t.img a = Memory.read s.img a

/-- 00_scope.md R12: the memory primitives are little-endian, a write is what the read after it gives, and it leaves every
other byte alone. -/
def Obligations.MemoryPrimitivesLittleEndian : Prop :=
  (∀ (s : State) (a : Nat) (b0 b1 b2 b3 : Byte),
    Memory.read s.img a = some b0 → Memory.read s.img (a + 1) = some b1 →
    Memory.read s.img (a + 2) = some b2 → Memory.read s.img (a + 3) = some b3 →
    s.memRead1 a = .ok b0 ∧
    ∃ w, s.memRead4 a = .ok w ∧ w = b3 ++ b2 ++ b1 ++ b0 ∧
      w.toNat = b0.toNat + 2^8 * b1.toNat + 2^16 * b2.toNat + 2^24 * b3.toNat) ∧
  (∀ (s : State) (a : Nat) (b : Byte), a < Config.imgCap →
    ∃ t, s.memWrite1 a b = .ok t ∧ t = { s with img := t.img } ∧ t.memRead1 a = .ok b ∧
      ∀ x, x ≠ a → Memory.read t.img x = Memory.read s.img x) ∧
  ∀ (s : State) (a : Nat) (v : Word), a + 4 ≤ Config.imgCap →
    ∃ t, s.memWrite4 a v = .ok t ∧ t = { s with img := t.img } ∧ t.memRead4 a = .ok v ∧
      t.memRead1 a = .ok (v.extractLsb' 0 8) ∧ t.memRead1 (a + 1) = .ok (v.extractLsb' 8 8) ∧
      t.memRead1 (a + 2) = .ok (v.extractLsb' 16 8) ∧ t.memRead1 (a + 3) = .ok (v.extractLsb' 24 8) ∧
      ∀ x, x < a ∨ a + 4 ≤ x → Memory.read t.img x = Memory.read s.img x

/-- The reset state meets the invariant. -/
def Obligations.ResetMeetsInvariant : Prop := BlockInv State.reset

/-- 10_state.md R41, 70_reset_and_hazards.md R213 (the spec marks both derived): every step from every state that meets
the invariant, whatever the host does, leads to a state that meets it. -/
def Obligations.EveryStepKeepsInvariant : Prop := ∀ s t : State, BlockInv s → step s = .next t → BlockInv t

/-- 20_memory.md R57, 70_reset_and_hazards.md R221: from every state that meets the invariant every command word is
answered: the step makes no access outside the loaded bytes, and neither faults nor refuses, however many steps follow. -/
def Obligations.InvariantStatesNeverStop : Prop :=
  (∀ (s : State) (n : Nat), BlockInv s → ∃ t, stepN n s = .next t ∧ BlockInv t) ∧
  ∀ (s : State) (w : CmdWord) (rest : List HostEvent), BlockInv s → s.input = .command w :: rest →
    ∃ t r, step s = .next t ∧ t.resp = some r ∧ t.input = rest

/-- 10_state.md R43 (the spec marks it derived): a byte at or above `LEN` is never read: two states that differ only there
answer every command alike and stay alike. -/
def Obligations.BytesAboveLenAreUnobservable : Prop :=
  ∀ (i : Instr) (s t : State) (m : Memory), s.rptr.toNat ≤ s.len.toNat → sameBelow s.len.toNat s.img m →
    exec i s = .next t →
    ∃ t', exec i { s with img := m } = .next t' ∧ t' = { t with img := t'.img } ∧
      sameBelow t.len.toNat t.img t'.img
end

