-- ==== Sys2Proof/Laws/Config.lean ====
section
/-! SUPPORT. The bounds of IMG_CAP (00_scope.md R8) and its two tests. -/

namespace Sys2Proof.Config

theorem imgCap_ge : 256 ≤ imgCap := by unfold imgCap; omega

theorem imgCap_le : imgCap ≤ 2 ^ 32 - 1 := by unfold imgCap; omega

@[simp] theorem atImgCap_iff (n : Nat) : atImgCap n = true ↔ n = imgCap := by
  have := imgCap_ge
  simp only [atImgCap, Bool.and_eq_true, decide_eq_true_eq]
  omega

@[simp] theorem belowImgCap_iff (n : Nat) : belowImgCap n = true ↔ n < imgCap := by
  have := imgCap_ge
  simp only [belowImgCap, Bool.or_eq_true, decide_eq_true_eq]
  omega

end Sys2Proof.Config
end

