-- ==== Sys2Proof/Laws/Decode.lean ====
section
/-! SUPPORT. The fields of a word made of fields, and a word as its fields (30_encoding.md R70). -/

namespace Sys2Proof

@[simp] theorem grp_cmdWord (g f : BitVec 4) (b : Byte) : CmdWord.grp (cmdWord g f b) = g := by
  apply BitVec.eq_of_getLsbD_eq
  intro i hi
  simp only [CmdWord.grp, cmdWord, BitVec.getLsbD_extractLsb', BitVec.getLsbD_append]
  interval_cases i <;> simp

@[simp] theorem fn_cmdWord (g f : BitVec 4) (b : Byte) : CmdWord.fn (cmdWord g f b) = f := by
  apply BitVec.eq_of_getLsbD_eq
  intro i hi
  simp only [CmdWord.fn, cmdWord, BitVec.getLsbD_extractLsb', BitVec.getLsbD_append]
  interval_cases i <;> simp

@[simp] theorem opd_cmdWord (g f : BitVec 4) (b : Byte) : CmdWord.opd (cmdWord g f b) = b := by
  apply BitVec.eq_of_getLsbD_eq
  intro i hi
  simp only [CmdWord.opd, cmdWord, BitVec.getLsbD_extractLsb', BitVec.getLsbD_append]
  interval_cases i <;> simp

theorem cmdWord_fields (w : CmdWord) : cmdWord (CmdWord.grp w) (CmdWord.fn w) (CmdWord.opd w) = w := by
  apply BitVec.eq_of_getLsbD_eq
  intro i hi
  simp only [CmdWord.opd, CmdWord.fn, CmdWord.grp, cmdWord, BitVec.getLsbD_extractLsb', BitVec.getLsbD_append]
  interval_cases i <;> simp

/-- The fields as numbers. -/
theorem grp_toNat (w : CmdWord) : (CmdWord.grp w).toNat = w.toNat / 4096 := by
  have := w.isLt
  simp only [CmdWord.grp, BitVec.extractLsb'_toNat, Nat.shiftRight_eq_div_pow]
  omega

theorem fn_toNat (w : CmdWord) : (CmdWord.fn w).toNat = w.toNat / 256 % 16 := by
  simp only [CmdWord.fn, BitVec.extractLsb'_toNat, Nat.shiftRight_eq_div_pow]

theorem opd_toNat (w : CmdWord) : (CmdWord.opd w).toNat = w.toNat % 256 := by
  simp only [CmdWord.opd, BitVec.extractLsb'_toNat, Nat.shiftRight_eq_div_pow, Nat.pow_zero, Nat.div_one]

end Sys2Proof
end

