-- ==== Sys2Proof/Laws/Memory.lean ====
section
/-! SUPPORT. Image memory: a read after a write, every operation keeps the canonical form, and what the bytes of a range
are. -/

namespace Sys2Proof.Machine

theorem Memory.read_write_same (m : Memory) (a : Nat) (b : Byte) : Memory.read (Memory.write m a b) a = some b := by
  induction m with
  | nil => simp [Memory.write, Memory.read]
  | cons e rest ih =>
    obtain ⟨x, c⟩ := e
    simp only [Memory.write]
    split
    · simp [Memory.read]
    · split
      · simp [Memory.read]
      · simp only [Memory.read, ih]
        rw [if_neg (by omega)]

theorem Memory.read_write_other (m : Memory) {a a' : Nat} (b : Byte) (h : a' ≠ a) :
    Memory.read (Memory.write m a b) a' = Memory.read m a' := by
  induction m with
  | nil => simp [Memory.write, Memory.read, h.symm]
  | cons e rest ih =>
    obtain ⟨x, c⟩ := e
    simp only [Memory.write]
    split
    · simp [Memory.read, h.symm]
    · split
      · next h2 => subst h2; simp [Memory.read, h.symm]
      · simp only [Memory.read, ih]

theorem Memory.read_write (m : Memory) (a a' : Nat) (b : Byte) :
    Memory.read (Memory.write m a b) a' = if a' = a then some b else Memory.read m a' := by
  split
  · next h => rw [h, Memory.read_write_same]
  · next h => exact Memory.read_write_other m b h

/-- `Memory.read` and `Memory.write` as the guide's two laws of memory; what the write keeps of the form is next. -/
theorem Memory.risingAbove_write {m : Memory} {l a : Nat} (b : Byte) (h : Memory.risingAbove l m = true) (hl : l < a) :
    Memory.risingAbove l (Memory.write m a b) = true := by
  induction m generalizing l with
  | nil => simp [Memory.write, Memory.risingAbove, hl]
  | cons e rest ih =>
    obtain ⟨x, c⟩ := e
    simp only [Memory.risingAbove, Bool.and_eq_true, decide_eq_true_eq] at h
    simp only [Memory.write]
    split
    · simp_all [Memory.risingAbove]
    · split
      · simp_all [Memory.risingAbove]
      · simp only [Memory.risingAbove, Bool.and_eq_true, decide_eq_true_eq]
        exact ⟨h.1, ih h.2 (by omega)⟩

theorem Memory.wf_write {m : Memory} (a : Nat) (b : Byte) (h : Memory.wf m = true) :
    Memory.wf (Memory.write m a b) = true := by
  cases m with
  | nil => simp [Memory.write, Memory.wf, Memory.risingAbove]
  | cons e rest =>
    obtain ⟨x, c⟩ := e
    simp only [Memory.wf] at h
    simp only [Memory.write]
    split
    · next hx => simp [Memory.wf, Memory.risingAbove, hx, h]
    · split
      · next hx => subst hx; exact h
      · exact Memory.risingAbove_write b h (by omega)

theorem Memory.inImage_write {m : Memory} {a : Nat} (b : Byte) (h : Memory.inImage m = true)
    (ha : a < Config.imgCap) : Memory.inImage (Memory.write m a b) = true := by
  induction m with
  | nil => simp [Memory.write, Memory.inImage, ha]
  | cons e rest ih =>
    obtain ⟨x, c⟩ := e
    simp only [Memory.inImage, Bool.and_eq_true, Config.belowImgCap_iff] at h
    simp only [Memory.write]
    split
    · simp [Memory.inImage, ha, h]
    · split
      · simp [Memory.inImage, ha, h]
      · simp [Memory.inImage, h.1, ih h.2]

theorem Memory.wf_nil : Memory.wf [] = true := rfl

/-- In canonical form an offset at or below a bound the entries lie above is not listed. -/
theorem Memory.read_below {m : Memory} {l a : Nat} (h : Memory.risingAbove l m = true) (ha : a ≤ l) :
    Memory.read m a = none := by
  induction m generalizing l with
  | nil => rfl
  | cons e rest ih =>
    obtain ⟨x, c⟩ := e
    simp only [Memory.risingAbove, Bool.and_eq_true, decide_eq_true_eq] at h
    simp only [Memory.read]
    rw [if_neg (by omega)]
    exact ih h.2 (by omega)

/-- Offsets outside the image are not listed. -/
theorem Memory.read_outside {m : Memory} {a : Nat} (h : Memory.inImage m = true) (ha : Config.imgCap ≤ a) :
    Memory.read m a = none := by
  induction m with
  | nil => rfl
  | cons e rest ih =>
    obtain ⟨x, c⟩ := e
    simp only [Memory.inImage, Bool.and_eq_true, Config.belowImgCap_iff] at h
    simp only [Memory.read]
    rw [if_neg (by omega)]
    exact ih h.2

/-- What it says that a range of memory holds a list of bytes. -/
theorem Memory.bytes_eq_some {m : Memory} {a n : Nat} {bs : List Byte} :
    Memory.bytes m a n = some bs ↔ bs.length = n ∧ ∀ k, k < n → Memory.read m (a + k) = bs[k]? := by
  induction n generalizing a bs with
  | zero => cases bs <;> simp [Memory.bytes]
  | succ n ih =>
    simp only [Memory.bytes]
    constructor
    · intro h
      split at h
      · next b bs' hb hbs =>
        simp only [Option.some.injEq] at h
        subst h
        obtain ⟨hl, hk⟩ := ih.mp hbs
        refine ⟨by simp [hl], fun k hkn => ?_⟩
        cases k with
        | zero => simpa using hb
        | succ k =>
          have := hk k (by omega)
          simpa [Nat.add_assoc, Nat.add_comm 1 k] using this
      · simp at h
    · rintro ⟨hl, hk⟩
      cases bs with
      | nil => simp at hl
      | cons b bs =>
        have h0 := hk 0 (by omega)
        have hr : Memory.bytes m (a + 1) n = some bs :=
          ih.mpr ⟨by simpa using hl, fun k hkn => by
            have := hk (k + 1) (by omega)
            simpa [Nat.add_assoc, Nat.add_comm 1 k] using this⟩
        simp only [Nat.add_zero, List.getElem?_cons_zero] at h0
        rw [h0, hr]

/-- A range reads the same in two memories that agree on it. -/
theorem Memory.bytes_congr {m m' : Memory} {a n : Nat} (h : ∀ k, k < n → Memory.read m (a + k) = Memory.read m' (a + k)) :
    Memory.bytes m a n = Memory.bytes m' a n := by
  induction n generalizing a with
  | zero => rfl
  | succ n ih =>
    have h0 := h 0 (by omega)
    have hr := ih (a := a + 1) fun k hk => by
      have := h (k + 1) (by omega)
      simpa [Nat.add_assoc, Nat.add_comm 1 k] using this
    simp only [Memory.bytes]
    simp only [Nat.add_zero] at h0
    rw [h0, hr]

/-- A byte written just above a range extends it. -/
theorem Memory.bytes_write_append {m : Memory} {n : Nat} {bs : List Byte} (b : Byte)
    (h : Memory.bytes m 0 n = some bs) : Memory.bytes (Memory.write m n b) 0 (n + 1) = some (bs ++ [b]) := by
  rw [Memory.bytes_eq_some] at h ⊢
  obtain ⟨hl, hk⟩ := h
  refine ⟨by simp [hl], fun k hkn => ?_⟩
  rw [Memory.read_write, Nat.zero_add]
  split
  · next e => rw [e, ← hl]; simp
  · next e =>
    have hlt : k < n := by omega
    rw [List.getElem?_append_left (by omega), ← hk k hlt, Nat.zero_add]

/-- A range's list of bytes exists when each of its offsets holds one. -/
theorem Memory.bytes_isSome {m : Memory} {a n : Nat} :
    (Memory.bytes m a n).isSome = true ↔ ∀ k, k < n → (Memory.read m (a + k)).isSome = true := by
  induction n generalizing a with
  | zero => simp [Memory.bytes]
  | succ n ih =>
    have step : (Memory.bytes m a (n + 1)).isSome = true ↔
        (Memory.read m a).isSome = true ∧ (Memory.bytes m (a + 1) n).isSome = true := by
      simp only [Memory.bytes]
      cases Memory.read m a <;> cases Memory.bytes m (a + 1) n <;> simp
    rw [step, ih]
    constructor
    · rintro ⟨h0, hr⟩ k hk
      cases k with
      | zero => simpa using h0
      | succ k => simpa [Nat.add_assoc, Nat.add_comm 1 k] using hr k (by omega)
    · intro h
      refine ⟨by simpa using h 0 (by omega), fun k hk => ?_⟩
      simpa [Nat.add_assoc, Nat.add_comm 1 k] using h (k + 1) (by omega)

end Sys2Proof.Machine
end

