-- ==== Sys2Proof/Laws/State.lean ====
section
/-! SUPPORT. One lemma per field per update of State, each true by rfl, so that no proof unfolds a record update. -/

namespace Sys2Proof.Machine

@[simp] theorem State.setCrc_crc (s : State) (v : Word) : (s.setCrc v).crc = v := rfl
@[simp] theorem State.setCrc_img (s : State) (v : Word) : (s.setCrc v).img = s.img := rfl
@[simp] theorem State.setCrc_len (s : State) (v : Word) : (s.setCrc v).len = s.len := rfl
@[simp] theorem State.setCrc_rptr (s : State) (v : Word) : (s.setCrc v).rptr = s.rptr := rfl
@[simp] theorem State.setCrc_status (s : State) (v : Word) : (s.setCrc v).status = s.status := rfl
@[simp] theorem State.setCrc_errval (s : State) (v : Word) : (s.setCrc v).errval = s.errval := rfl
@[simp] theorem State.setCrc_rMagic (s : State) (v : Word) : (s.setCrc v).rMagic = s.rMagic := rfl
@[simp] theorem State.setCrc_rVersion (s : State) (v : Word) : (s.setCrc v).rVersion = s.rVersion := rfl
@[simp] theorem State.setCrc_rSize (s : State) (v : Word) : (s.setCrc v).rSize = s.rSize := rfl
@[simp] theorem State.setCrc_rChecksum (s : State) (v : Word) : (s.setCrc v).rChecksum = s.rChecksum := rfl
@[simp] theorem State.setCrc_resp (s : State) (v : Word) : (s.setCrc v).resp = s.resp := rfl
@[simp] theorem State.setCrc_input (s : State) (v : Word) : (s.setCrc v).input = s.input := rfl

@[simp] theorem State.setImg_crc (s : State) (m : Memory) : (s.setImg m).crc = s.crc := rfl
@[simp] theorem State.setImg_img (s : State) (m : Memory) : (s.setImg m).img = m := rfl
@[simp] theorem State.setImg_len (s : State) (m : Memory) : (s.setImg m).len = s.len := rfl
@[simp] theorem State.setImg_rptr (s : State) (m : Memory) : (s.setImg m).rptr = s.rptr := rfl
@[simp] theorem State.setImg_status (s : State) (m : Memory) : (s.setImg m).status = s.status := rfl
@[simp] theorem State.setImg_errval (s : State) (m : Memory) : (s.setImg m).errval = s.errval := rfl
@[simp] theorem State.setImg_rMagic (s : State) (m : Memory) : (s.setImg m).rMagic = s.rMagic := rfl
@[simp] theorem State.setImg_rVersion (s : State) (m : Memory) : (s.setImg m).rVersion = s.rVersion := rfl
@[simp] theorem State.setImg_rSize (s : State) (m : Memory) : (s.setImg m).rSize = s.rSize := rfl
@[simp] theorem State.setImg_rChecksum (s : State) (m : Memory) : (s.setImg m).rChecksum = s.rChecksum := rfl
@[simp] theorem State.setImg_resp (s : State) (m : Memory) : (s.setImg m).resp = s.resp := rfl
@[simp] theorem State.setImg_input (s : State) (m : Memory) : (s.setImg m).input = s.input := rfl

@[simp] theorem State.setLen_crc (s : State) (v : Word) : (s.setLen v).crc = s.crc := rfl
@[simp] theorem State.setLen_img (s : State) (v : Word) : (s.setLen v).img = s.img := rfl
@[simp] theorem State.setLen_len (s : State) (v : Word) : (s.setLen v).len = v := rfl
@[simp] theorem State.setLen_rptr (s : State) (v : Word) : (s.setLen v).rptr = s.rptr := rfl
@[simp] theorem State.setLen_status (s : State) (v : Word) : (s.setLen v).status = s.status := rfl
@[simp] theorem State.setLen_errval (s : State) (v : Word) : (s.setLen v).errval = s.errval := rfl
@[simp] theorem State.setLen_rMagic (s : State) (v : Word) : (s.setLen v).rMagic = s.rMagic := rfl
@[simp] theorem State.setLen_rVersion (s : State) (v : Word) : (s.setLen v).rVersion = s.rVersion := rfl
@[simp] theorem State.setLen_rSize (s : State) (v : Word) : (s.setLen v).rSize = s.rSize := rfl
@[simp] theorem State.setLen_rChecksum (s : State) (v : Word) : (s.setLen v).rChecksum = s.rChecksum := rfl
@[simp] theorem State.setLen_resp (s : State) (v : Word) : (s.setLen v).resp = s.resp := rfl
@[simp] theorem State.setLen_input (s : State) (v : Word) : (s.setLen v).input = s.input := rfl

@[simp] theorem State.setRptr_crc (s : State) (v : Word) : (s.setRptr v).crc = s.crc := rfl
@[simp] theorem State.setRptr_img (s : State) (v : Word) : (s.setRptr v).img = s.img := rfl
@[simp] theorem State.setRptr_len (s : State) (v : Word) : (s.setRptr v).len = s.len := rfl
@[simp] theorem State.setRptr_rptr (s : State) (v : Word) : (s.setRptr v).rptr = v := rfl
@[simp] theorem State.setRptr_status (s : State) (v : Word) : (s.setRptr v).status = s.status := rfl
@[simp] theorem State.setRptr_errval (s : State) (v : Word) : (s.setRptr v).errval = s.errval := rfl
@[simp] theorem State.setRptr_rMagic (s : State) (v : Word) : (s.setRptr v).rMagic = s.rMagic := rfl
@[simp] theorem State.setRptr_rVersion (s : State) (v : Word) : (s.setRptr v).rVersion = s.rVersion := rfl
@[simp] theorem State.setRptr_rSize (s : State) (v : Word) : (s.setRptr v).rSize = s.rSize := rfl
@[simp] theorem State.setRptr_rChecksum (s : State) (v : Word) : (s.setRptr v).rChecksum = s.rChecksum := rfl
@[simp] theorem State.setRptr_resp (s : State) (v : Word) : (s.setRptr v).resp = s.resp := rfl
@[simp] theorem State.setRptr_input (s : State) (v : Word) : (s.setRptr v).input = s.input := rfl

@[simp] theorem State.setStatus_crc (s : State) (st : SignStatus) : (s.setStatus st).crc = s.crc := rfl
@[simp] theorem State.setStatus_img (s : State) (st : SignStatus) : (s.setStatus st).img = s.img := rfl
@[simp] theorem State.setStatus_len (s : State) (st : SignStatus) : (s.setStatus st).len = s.len := rfl
@[simp] theorem State.setStatus_rptr (s : State) (st : SignStatus) : (s.setStatus st).rptr = s.rptr := rfl
@[simp] theorem State.setStatus_status (s : State) (st : SignStatus) : (s.setStatus st).status = st := rfl
@[simp] theorem State.setStatus_errval (s : State) (st : SignStatus) : (s.setStatus st).errval = s.errval := rfl
@[simp] theorem State.setStatus_rMagic (s : State) (st : SignStatus) : (s.setStatus st).rMagic = s.rMagic := rfl
@[simp] theorem State.setStatus_rVersion (s : State) (st : SignStatus) : (s.setStatus st).rVersion = s.rVersion := rfl
@[simp] theorem State.setStatus_rSize (s : State) (st : SignStatus) : (s.setStatus st).rSize = s.rSize := rfl
@[simp] theorem State.setStatus_rChecksum (s : State) (st : SignStatus) : (s.setStatus st).rChecksum = s.rChecksum := rfl
@[simp] theorem State.setStatus_resp (s : State) (st : SignStatus) : (s.setStatus st).resp = s.resp := rfl
@[simp] theorem State.setStatus_input (s : State) (st : SignStatus) : (s.setStatus st).input = s.input := rfl

@[simp] theorem State.setErrval_crc (s : State) (v : Word) : (s.setErrval v).crc = s.crc := rfl
@[simp] theorem State.setErrval_img (s : State) (v : Word) : (s.setErrval v).img = s.img := rfl
@[simp] theorem State.setErrval_len (s : State) (v : Word) : (s.setErrval v).len = s.len := rfl
@[simp] theorem State.setErrval_rptr (s : State) (v : Word) : (s.setErrval v).rptr = s.rptr := rfl
@[simp] theorem State.setErrval_status (s : State) (v : Word) : (s.setErrval v).status = s.status := rfl
@[simp] theorem State.setErrval_errval (s : State) (v : Word) : (s.setErrval v).errval = v := rfl
@[simp] theorem State.setErrval_rMagic (s : State) (v : Word) : (s.setErrval v).rMagic = s.rMagic := rfl
@[simp] theorem State.setErrval_rVersion (s : State) (v : Word) : (s.setErrval v).rVersion = s.rVersion := rfl
@[simp] theorem State.setErrval_rSize (s : State) (v : Word) : (s.setErrval v).rSize = s.rSize := rfl
@[simp] theorem State.setErrval_rChecksum (s : State) (v : Word) : (s.setErrval v).rChecksum = s.rChecksum := rfl
@[simp] theorem State.setErrval_resp (s : State) (v : Word) : (s.setErrval v).resp = s.resp := rfl
@[simp] theorem State.setErrval_input (s : State) (v : Word) : (s.setErrval v).input = s.input := rfl

@[simp] theorem State.setResults_crc (s : State) (a b c d : Word) : (s.setResults a b c d).crc = s.crc := rfl
@[simp] theorem State.setResults_img (s : State) (a b c d : Word) : (s.setResults a b c d).img = s.img := rfl
@[simp] theorem State.setResults_len (s : State) (a b c d : Word) : (s.setResults a b c d).len = s.len := rfl
@[simp] theorem State.setResults_rptr (s : State) (a b c d : Word) : (s.setResults a b c d).rptr = s.rptr := rfl
@[simp] theorem State.setResults_status (s : State) (a b c d : Word) : (s.setResults a b c d).status = s.status := rfl
@[simp] theorem State.setResults_errval (s : State) (a b c d : Word) : (s.setResults a b c d).errval = s.errval := rfl
@[simp] theorem State.setResults_rMagic (s : State) (a b c d : Word) : (s.setResults a b c d).rMagic = a := rfl
@[simp] theorem State.setResults_rVersion (s : State) (a b c d : Word) : (s.setResults a b c d).rVersion = b := rfl
@[simp] theorem State.setResults_rSize (s : State) (a b c d : Word) : (s.setResults a b c d).rSize = c := rfl
@[simp] theorem State.setResults_rChecksum (s : State) (a b c d : Word) : (s.setResults a b c d).rChecksum = d := rfl
@[simp] theorem State.setResults_resp (s : State) (a b c d : Word) : (s.setResults a b c d).resp = s.resp := rfl
@[simp] theorem State.setResults_input (s : State) (a b c d : Word) : (s.setResults a b c d).input = s.input := rfl

@[simp] theorem State.setResp_crc (s : State) (r : Option Response) : (s.setResp r).crc = s.crc := rfl
@[simp] theorem State.setResp_img (s : State) (r : Option Response) : (s.setResp r).img = s.img := rfl
@[simp] theorem State.setResp_len (s : State) (r : Option Response) : (s.setResp r).len = s.len := rfl
@[simp] theorem State.setResp_rptr (s : State) (r : Option Response) : (s.setResp r).rptr = s.rptr := rfl
@[simp] theorem State.setResp_status (s : State) (r : Option Response) : (s.setResp r).status = s.status := rfl
@[simp] theorem State.setResp_errval (s : State) (r : Option Response) : (s.setResp r).errval = s.errval := rfl
@[simp] theorem State.setResp_rMagic (s : State) (r : Option Response) : (s.setResp r).rMagic = s.rMagic := rfl
@[simp] theorem State.setResp_rVersion (s : State) (r : Option Response) : (s.setResp r).rVersion = s.rVersion := rfl
@[simp] theorem State.setResp_rSize (s : State) (r : Option Response) : (s.setResp r).rSize = s.rSize := rfl
@[simp] theorem State.setResp_rChecksum (s : State) (r : Option Response) : (s.setResp r).rChecksum = s.rChecksum := rfl
@[simp] theorem State.setResp_resp (s : State) (r : Option Response) : (s.setResp r).resp = r := rfl
@[simp] theorem State.setResp_input (s : State) (r : Option Response) : (s.setResp r).input = s.input := rfl

@[simp] theorem State.setInput_crc (s : State) (es : List HostEvent) : (s.setInput es).crc = s.crc := rfl
@[simp] theorem State.setInput_img (s : State) (es : List HostEvent) : (s.setInput es).img = s.img := rfl
@[simp] theorem State.setInput_len (s : State) (es : List HostEvent) : (s.setInput es).len = s.len := rfl
@[simp] theorem State.setInput_rptr (s : State) (es : List HostEvent) : (s.setInput es).rptr = s.rptr := rfl
@[simp] theorem State.setInput_status (s : State) (es : List HostEvent) : (s.setInput es).status = s.status := rfl
@[simp] theorem State.setInput_errval (s : State) (es : List HostEvent) : (s.setInput es).errval = s.errval := rfl
@[simp] theorem State.setInput_rMagic (s : State) (es : List HostEvent) : (s.setInput es).rMagic = s.rMagic := rfl
@[simp] theorem State.setInput_rVersion (s : State) (es : List HostEvent) : (s.setInput es).rVersion = s.rVersion := rfl
@[simp] theorem State.setInput_rSize (s : State) (es : List HostEvent) : (s.setInput es).rSize = s.rSize := rfl
@[simp] theorem State.setInput_rChecksum (s : State) (es : List HostEvent) : (s.setInput es).rChecksum = s.rChecksum := rfl
@[simp] theorem State.setInput_resp (s : State) (es : List HostEvent) : (s.setInput es).resp = s.resp := rfl
@[simp] theorem State.setInput_input (s : State) (es : List HostEvent) : (s.setInput es).input = es := rfl

@[simp] theorem State.emptyBuffer_crc (s : State) : (s.emptyBuffer).crc = s.crc := rfl
@[simp] theorem State.emptyBuffer_img (s : State) : (s.emptyBuffer).img = s.img := rfl
@[simp] theorem State.emptyBuffer_len (s : State) : (s.emptyBuffer).len = 0 := rfl
@[simp] theorem State.emptyBuffer_rptr (s : State) : (s.emptyBuffer).rptr = 0 := rfl
@[simp] theorem State.emptyBuffer_status (s : State) : (s.emptyBuffer).status = .idle := rfl
@[simp] theorem State.emptyBuffer_errval (s : State) : (s.emptyBuffer).errval = 0 := rfl
@[simp] theorem State.emptyBuffer_rMagic (s : State) : (s.emptyBuffer).rMagic = 0 := rfl
@[simp] theorem State.emptyBuffer_rVersion (s : State) : (s.emptyBuffer).rVersion = 0 := rfl
@[simp] theorem State.emptyBuffer_rSize (s : State) : (s.emptyBuffer).rSize = 0 := rfl
@[simp] theorem State.emptyBuffer_rChecksum (s : State) : (s.emptyBuffer).rChecksum = 0 := rfl
@[simp] theorem State.emptyBuffer_resp (s : State) : (s.emptyBuffer).resp = s.resp := rfl
@[simp] theorem State.emptyBuffer_input (s : State) : (s.emptyBuffer).input = s.input := rfl

@[simp] theorem State.resetRegisters_crc (s : State) : (s.resetRegisters).crc = Config.crcInit := rfl
@[simp] theorem State.resetRegisters_img (s : State) : (s.resetRegisters).img = s.img := rfl
@[simp] theorem State.resetRegisters_len (s : State) : (s.resetRegisters).len = 0 := rfl
@[simp] theorem State.resetRegisters_rptr (s : State) : (s.resetRegisters).rptr = 0 := rfl
@[simp] theorem State.resetRegisters_status (s : State) : (s.resetRegisters).status = .idle := rfl
@[simp] theorem State.resetRegisters_errval (s : State) : (s.resetRegisters).errval = 0 := rfl
@[simp] theorem State.resetRegisters_rMagic (s : State) : (s.resetRegisters).rMagic = 0 := rfl
@[simp] theorem State.resetRegisters_rVersion (s : State) : (s.resetRegisters).rVersion = 0 := rfl
@[simp] theorem State.resetRegisters_rSize (s : State) : (s.resetRegisters).rSize = 0 := rfl
@[simp] theorem State.resetRegisters_rChecksum (s : State) : (s.resetRegisters).rChecksum = 0 := rfl
@[simp] theorem State.resetRegisters_resp (s : State) : (s.resetRegisters).resp = s.resp := rfl
@[simp] theorem State.resetRegisters_input (s : State) : (s.resetRegisters).input = s.input := rfl

@[simp] theorem State.forgetResult_crc (s : State) : (s.forgetResult).crc = s.crc := rfl
@[simp] theorem State.forgetResult_img (s : State) : (s.forgetResult).img = s.img := rfl
@[simp] theorem State.forgetResult_len (s : State) : (s.forgetResult).len = s.len := rfl
@[simp] theorem State.forgetResult_rptr (s : State) : (s.forgetResult).rptr = 0 := rfl
@[simp] theorem State.forgetResult_status (s : State) : (s.forgetResult).status = s.status := rfl
@[simp] theorem State.forgetResult_errval (s : State) : (s.forgetResult).errval = 0 := rfl
@[simp] theorem State.forgetResult_rMagic (s : State) : (s.forgetResult).rMagic = 0 := rfl
@[simp] theorem State.forgetResult_rVersion (s : State) : (s.forgetResult).rVersion = 0 := rfl
@[simp] theorem State.forgetResult_rSize (s : State) : (s.forgetResult).rSize = 0 := rfl
@[simp] theorem State.forgetResult_rChecksum (s : State) : (s.forgetResult).rChecksum = 0 := rfl
@[simp] theorem State.forgetResult_resp (s : State) : (s.forgetResult).resp = s.resp := rfl
@[simp] theorem State.forgetResult_input (s : State) : (s.forgetResult).input = s.input := rfl

@[simp] theorem State.publish_crc (s : State) (c m v z k : Word) : (s.publish c m v z k).crc = c := rfl
@[simp] theorem State.publish_img (s : State) (c m v z k : Word) : (s.publish c m v z k).img = s.img := rfl
@[simp] theorem State.publish_len (s : State) (c m v z k : Word) : (s.publish c m v z k).len = s.len := rfl
@[simp] theorem State.publish_rptr (s : State) (c m v z k : Word) : (s.publish c m v z k).rptr = s.rptr := rfl
@[simp] theorem State.publish_status (s : State) (c m v z k : Word) : (s.publish c m v z k).status = .signed := rfl
@[simp] theorem State.publish_errval (s : State) (c m v z k : Word) : (s.publish c m v z k).errval = s.errval := rfl
@[simp] theorem State.publish_rMagic (s : State) (c m v z k : Word) : (s.publish c m v z k).rMagic = m := rfl
@[simp] theorem State.publish_rVersion (s : State) (c m v z k : Word) : (s.publish c m v z k).rVersion = v := rfl
@[simp] theorem State.publish_rSize (s : State) (c m v z k : Word) : (s.publish c m v z k).rSize = z := rfl
@[simp] theorem State.publish_rChecksum (s : State) (c m v z k : Word) : (s.publish c m v z k).rChecksum = k := rfl
@[simp] theorem State.publish_resp (s : State) (c m v z k : Word) : (s.publish c m v z k).resp = s.resp := rfl
@[simp] theorem State.publish_input (s : State) (c m v z k : Word) : (s.publish c m v z k).input = s.input := rfl

end Sys2Proof.Machine
end

