-- ==== Sys2Proof/Laws/Ops.lean ====
section
/-! SUPPORT. What each shared operation can do, said once: accesses, the memory primitives, the CRC, and each command's
outcomes. -/

namespace Sys2Proof.Machine

@[simp] theorem withAccess_ok {α : Type} (x : α) (k : α → Result) : withAccess (.ok x) k = k x := rfl

@[simp] theorem withAccess_error {α : Type} (f : Fault) (k : α → Result) :
    withAccess (.error f : Access α) k = .fault f := rfl

theorem withAccess_next {α : Type} {r : Access α} {k : α → Result} {t : State} (h : withAccess r k = .next t) :
    ∃ x, r = .ok x ∧ k x = .next t := by
  cases r with
  | ok x => exact ⟨x, rfl, h⟩
  | error f => simp at h

@[simp] theorem bind_next {α β : Type} (x : α) (k : α → Access β) : ((.ok x : Access α) >>= k) = k x := rfl

@[simp] theorem bind_stop {α β : Type} (f : Fault) (k : α → Access β) :
    ((.error f : Access α) >>= k) = .error f := rfl

theorem bind_eq_ok {α β : Type} {r : Access α} {k : α → Access β} {y : β} (h : (r >>= k) = .ok y) :
    ∃ x, r = .ok x ∧ k x = .ok y := by
  cases r with
  | ok x => exact ⟨x, rfl, h⟩
  | error f => simp at h

@[simp] theorem answer_next (s t : State) (code : RCode) (d : Word) :
    answer s code d = .next t ↔ s.setResp (some ⟨code, d⟩) = t := by
  simp [answer]

@[simp] theorem respondOk_next (s t : State) (d : Word) :
    respondOk s d = .next t ↔ s.setResp (some ⟨.ok, d⟩) = t := by
  simp [respondOk]

@[simp] theorem raise_next (s t : State) (code : RCode) (d : Word) :
    raise s code d = .next t ↔ s.setResp (some ⟨code, d⟩) = t := by
  simp [raise]

/-! ### Reads -/

theorem memRead1_eq_ok {s : State} {a : Nat} {b : Byte} : s.memRead1 a = .ok b ↔ Memory.read s.img a = some b := by
  unfold State.memRead1
  cases Memory.read s.img a <;> simp

theorem memRead1_congr {s s' : State} {a : Nat} (h : Memory.read s.img a = Memory.read s'.img a) :
    s.memRead1 a = s'.memRead1 a := by
  unfold State.memRead1; rw [h]

theorem memRead4_congr {s s' : State} {a : Nat}
    (h : ∀ k, k < 4 → Memory.read s.img (a + k) = Memory.read s'.img (a + k)) : s.memRead4 a = s'.memRead4 a := by
  have h0 : s.memRead1 a = s'.memRead1 a := memRead1_congr (h 0 (by omega))
  unfold State.memRead4
  rw [h0, memRead1_congr (s := s) (s' := s') (h 1 (by omega)),
    memRead1_congr (s := s) (s' := s') (h 2 (by omega)), memRead1_congr (s := s) (s' := s') (h 3 (by omega))]

theorem crcScan_congr {s s' : State} {a n : Nat} {c : Word}
    (h : ∀ k, k < n → Memory.read s.img (a + k) = Memory.read s'.img (a + k)) :
    s.crcScan a n c = s'.crcScan a n c := by
  induction n generalizing a c with
  | zero => rfl
  | succ n ih =>
    have hr : ∀ c', s.crcScan (a + 1) n c' = s'.crcScan (a + 1) n c' := fun c' => ih fun k hk => by
      have := h (k + 1) (by omega)
      simpa [Nat.add_assoc, Nat.add_comm 1 k] using this
    have h0 : s.memRead1 a = s'.memRead1 a := memRead1_congr (h 0 (by omega))
    simp only [State.crcScan, hr, h0]

/-- What a loaded image says of the image memory. -/
theorem image_eq_some {s : State} {I : List Byte} :
    s.image = some I ↔ I.length = s.len.toNat ∧ ∀ k, k < s.len.toNat → Memory.read s.img k = I[k]? := by
  simp [State.image, Memory.bytes_eq_some]

theorem image_read {s : State} {I : List Byte} (h : s.image = some I) {k : Nat} (hk : k < I.length) :
    Memory.read s.img k = some (I.getD k 0) := by
  obtain ⟨hl, hr⟩ := image_eq_some.mp h
  rw [hr k (by omega), List.getD_eq_getElem?_getD, List.getElem?_eq_getElem hk]
  rfl

theorem memRead4_image {s : State} {I : List Byte} (h : s.image = some I) {a : Nat} (ha : a + 4 ≤ I.length) :
    s.memRead4 a = .ok (le32 I a) := by
  have r := fun k (hk : k < 4) => memRead1_eq_ok.mpr (image_read h (k := a + k) (by omega))
  have r0 := r 0 (by omega)
  simp only [Nat.add_zero] at r0
  simp only [State.memRead4, r0, r 1 (by omega), r 2 (by omega), r 3 (by omega), bind_next, le32]
  rfl

@[simp] theorem crcFeed_nil (c : Word) : crcFeed c [] = c := rfl

@[simp] theorem crcFeed_cons (c : Word) (b : Byte) (bs : List Byte) :
    crcFeed c (b :: bs) = crcFeed (crcStep c b) bs := rfl

theorem crcFeed_append (c : Word) (xs ys : List Byte) : crcFeed c (xs ++ ys) = crcFeed (crcFeed c xs) ys := by
  simp [crcFeed]

/-- SIGN's scan feeds exactly the bytes of the range, in order (42_signer.md R138). -/
theorem crcScan_image {s : State} {I : List Byte} (h : s.image = some I) {a n : Nat} (hn : a + n ≤ I.length)
    (c : Word) : s.crcScan a n c = .ok (crcFeed c ((I.drop a).take n)) := by
  induction n generalizing a c with
  | zero => simp [State.crcScan]
  | succ n ih =>
    have hd : (I.drop a).take (n + 1) = I.getD a 0 :: (I.drop (a + 1)).take n := by
      rw [List.drop_eq_getElem_cons (by omega : a < I.length), List.take_succ_cons,
        List.getD_eq_getElem?_getD, List.getElem?_eq_getElem (by omega : a < I.length)]
      rfl
    simp only [State.crcScan, memRead1_eq_ok.mpr (image_read h (k := a) (by omega)), bind_next,
      ih (by omega : a + 1 + n ≤ I.length), hd, crcFeed_cons]

/-! ### Writes -/

/-- Memory with a 32-bit value at offset `a`, little-endian. -/
def Memory.put4 (m : Memory) (a : Nat) (v : Word) : Memory :=
  Memory.write (Memory.write (Memory.write (Memory.write m a (byteOf v 0)) (a + 1) (byteOf v 1)) (a + 2) (byteOf v 2))
    (a + 3) (byteOf v 3)

theorem Memory.read_put4 (m : Memory) (a : Nat) (v : Word) (x : Nat) :
    Memory.read (Memory.put4 m a v) x =
      if a ≤ x ∧ x < a + 4 then some (byteOf v (x - a)) else Memory.read m x := by
  simp only [Memory.put4, Memory.read_write]
  split_ifs <;> first | rfl | omega | skip
  · rw [show x - a = 3 by omega]
  · rw [show x - a = 2 by omega]
  · rw [show x - a = 1 by omega]
  · rw [show x - a = 0 by omega]

theorem Memory.wf_put4 {m : Memory} (a : Nat) (v : Word) (h : Memory.wf m = true) :
    Memory.wf (Memory.put4 m a v) = true := by
  simp only [Memory.put4]
  exact Memory.wf_write _ _ (Memory.wf_write _ _ (Memory.wf_write _ _ (Memory.wf_write _ _ h)))

theorem Memory.inImage_put4 {m : Memory} {a : Nat} (v : Word) (h : Memory.inImage m = true)
    (ha : a + 3 < Config.imgCap) : Memory.inImage (Memory.put4 m a v) = true := by
  simp only [Memory.put4]
  exact Memory.inImage_write _ (Memory.inImage_write _ (Memory.inImage_write _ (Memory.inImage_write _ h
    (by omega)) (by omega)) (by omega)) ha

theorem memWrite1_eq {s : State} {a : Nat} (b : Byte) (ha : a < Config.imgCap) :
    s.memWrite1 a b = .ok (s.setImg (Memory.write s.img a b)) := by
  simp [State.memWrite1, ha]

theorem memWrite1_eq_ok {s t : State} {a : Nat} {b : Byte} (h : s.memWrite1 a b = .ok t) :
    a < Config.imgCap ∧ t = s.setImg (Memory.write s.img a b) := by
  unfold State.memWrite1 at h
  split at h
  · next hc => exact ⟨by simpa using hc, by simpa using h.symm⟩
  · simp at h

theorem memWrite4_eq {s : State} {a : Nat} (v : Word) (ha : a + 3 < Config.imgCap) :
    s.memWrite4 a v = .ok (s.setImg (Memory.put4 s.img a v)) := by
  simp only [State.memWrite4, memWrite1_eq _ (by omega : a < Config.imgCap), bind_next,
    memWrite1_eq _ (by omega : a + 1 < Config.imgCap), memWrite1_eq _ (by omega : a + 2 < Config.imgCap),
    memWrite1_eq _ ha, State.setImg_img]
  rfl

/-- Image memory with the two header fields patched (42_signer.md R132, phase 4). -/
def Memory.patched (m : Memory) (size checksum : Word) : Memory := Memory.put4 (Memory.put4 m 8 size) 12 checksum

theorem patchHeader_eq (s : State) (size checksum : Word) :
    s.patchHeader size checksum = .ok (s.setImg (Memory.patched s.img size checksum)) := by
  have := Config.imgCap_ge
  simp only [State.patchHeader, memWrite4_eq _ (by omega : 8 + 3 < Config.imgCap), bind_next,
    memWrite4_eq _ (by omega : 12 + 3 < Config.imgCap)]
  rfl

/-- Bytes 8 to 11 are the size, 12 to 15 the checksum, every other byte is as before (R63, R142). -/
theorem Memory.read_patched (m : Memory) (size checksum : Word) (x : Nat) :
    Memory.read (Memory.patched m size checksum) x =
      if 12 ≤ x ∧ x < 16 then some (byteOf checksum (x - 12))
      else if 8 ≤ x ∧ x < 12 then some (byteOf size (x - 8)) else Memory.read m x := by
  simp only [Memory.patched, Memory.read_put4]

theorem Memory.wf_patched {m : Memory} (size checksum : Word) (h : Memory.wf m = true) :
    Memory.wf (Memory.patched m size checksum) = true := Memory.wf_put4 _ _ (Memory.wf_put4 _ _ h)

theorem Memory.inImage_patched {m : Memory} (size checksum : Word) (h : Memory.inImage m = true) :
    Memory.inImage (Memory.patched m size checksum) = true := by
  have := Config.imgCap_ge
  exact Memory.inImage_put4 _ (Memory.inImage_put4 _ h (by omega)) (by omega)

/-! ### Little-endian fields of a byte sequence -/

theorem ofBytes_byteOf (v : Word) : ofBytes (byteOf v 0) (byteOf v 1) (byteOf v 2) (byteOf v 3) = v := by
  apply BitVec.eq_of_getLsbD_eq
  intro i hi
  simp only [ofBytes, byteOf, BitVec.getLsbD_append, BitVec.getLsbD_extractLsb']
  interval_cases i <;> simp

@[simp] theorem putLe32_length (I : List Byte) (a : Nat) (v : Word) : (putLe32 I a v).length = I.length := by
  simp [putLe32]

theorem putLe32_getElem? {I : List Byte} {a : Nat} (v : Word) (ha : a + 4 ≤ I.length) (x : Nat) :
    (putLe32 I a v)[x]? = if a ≤ x ∧ x < a + 4 then some (byteOf v (x - a)) else I[x]? := by
  simp only [putLe32, List.getElem?_set, List.length_set]
  split_ifs <;> first | rfl | omega | skip
  · rw [show x - a = 3 by omega]
  · rw [show x - a = 2 by omega]
  · rw [show x - a = 1 by omega]
  · rw [show x - a = 0 by omega]

theorem putLe32_getD {I : List Byte} {a : Nat} (v : Word) (ha : a + 4 ≤ I.length) (x : Nat) :
    (putLe32 I a v).getD x 0 = if a ≤ x ∧ x < a + 4 then byteOf v (x - a) else I.getD x 0 := by
  simp only [List.getD_eq_getElem?_getD, putLe32_getElem? v ha]
  split <;> rfl

theorem le32_putLe32_same {I : List Byte} {a : Nat} (v : Word) (ha : a + 4 ≤ I.length) :
    le32 (putLe32 I a v) a = v := by
  simp only [le32, putLe32_getD v ha]
  simp [ofBytes_byteOf]

theorem le32_putLe32_other {I : List Byte} {a a' : Nat} (v : Word) (ha : a + 4 ≤ I.length)
    (h : a' + 4 ≤ a ∨ a + 4 ≤ a') : le32 (putLe32 I a v) a' = le32 I a' := by
  simp only [le32, putLe32_getD v ha]
  rw [if_neg (by omega), if_neg (by omega), if_neg (by omega), if_neg (by omega)]

theorem drop_putLe32 (I : List Byte) {a d : Nat} (v : Word) (h : a + 4 ≤ d) :
    (putLe32 I a v).drop d = I.drop d := by
  simp only [putLe32]
  rw [List.drop_set_of_lt (by omega), List.drop_set_of_lt (by omega), List.drop_set_of_lt (by omega),
    List.drop_set_of_lt (by omega)]

/-- The patched memory holds the patched image. -/
theorem image_patched {s : State} {I : List Byte} (h : s.image = some I) (h16 : 16 ≤ I.length) (size checksum : Word) :
    (s.setImg (Memory.patched s.img size checksum)).image = some (putLe32 (putLe32 I 8 size) 12 checksum) := by
  obtain ⟨hl, hr⟩ := image_eq_some.mp h
  refine image_eq_some.mpr ⟨by simp [hl], fun k hk => ?_⟩
  simp only [State.setImg_len] at hk
  simp only [State.setImg_img, Memory.read_patched]
  rw [putLe32_getElem? _ (by simp; omega), putLe32_getElem? _ (by omega), hr k hk]

/-! ### The commands -/

theorem execImgPush_accepted {s : State} (b : Byte) (hst : s.status = .idle) (hlen : s.len.toNat < Config.imgCap) :
    execImgPush b s =
      .next (((s.setImg (Memory.write s.img s.len.toNat b)).setLen (s.len + 1)).setResp (some ⟨.ok, 0⟩)) := by
  have hne : ¬ Config.atImgCap s.len.toNat = true := by rw [Config.atImgCap_iff]; omega
  simp only [execImgPush, hst, ne_eq, not_true_eq_false, if_false, hne, memWrite1_eq b hlen, withAccess_ok]
  rfl

/-- What IMG.PUSH can do (41_image_buffer.md R112). -/
theorem execImgPush_next {s t : State} {b : Byte} (h : execImgPush b s = .next t) :
    (s.status ≠ .idle ∧ t = s.setResp (some ⟨.seqError, 0⟩)) ∨
    (s.status = .idle ∧ s.len.toNat = Config.imgCap ∧ t = s.setResp (some ⟨.imgFull, 0⟩)) ∨
    (s.status = .idle ∧ s.len.toNat < Config.imgCap ∧
      t = ((s.setImg (Memory.write s.img s.len.toNat b)).setLen (s.len + 1)).setResp (some ⟨.ok, 0⟩)) := by
  unfold execImgPush at h
  split at h
  · next hs => exact .inl ⟨hs, ((raise_next ..).mp h).symm⟩
  · next hs =>
    have hs' : s.status = .idle := not_not.mp hs
    split at h
    · next hc => exact .inr (.inl ⟨hs', by simpa using hc, ((raise_next ..).mp h).symm⟩)
    · obtain ⟨u, hu, hk⟩ := withAccess_next h
      obtain ⟨hlt, rfl⟩ := memWrite1_eq_ok hu
      exact .inr (.inr ⟨hs', hlt, ((respondOk_next ..).mp hk).symm⟩)

theorem execImgPop_delivered {s : State} {v : Byte} (hst : s.status = .signed) (hne : s.rptr ≠ s.len)
    (hv : Memory.read s.img s.rptr.toNat = some v) :
    execImgPop s = .next ((s.setRptr (s.rptr + 1)).setResp (some ⟨.ok, v.setWidth 32⟩)) := by
  simp only [execImgPop, hst, ne_eq, not_true_eq_false, if_false, hne, memRead1_eq_ok.mpr hv, withAccess_ok]
  rfl

/-- What IMG.POP can do (R113). -/
theorem execImgPop_next {s t : State} (h : execImgPop s = .next t) :
    (s.status ≠ .signed ∧ t = s.setResp (some ⟨.noOutput, 0⟩)) ∨
    (s.status = .signed ∧ s.rptr = s.len ∧ t = s.setResp (some ⟨.endOfImage, 0⟩)) ∨
    (s.status = .signed ∧ s.rptr ≠ s.len ∧ ∃ v, Memory.read s.img s.rptr.toNat = some v ∧
      t = (s.setRptr (s.rptr + 1)).setResp (some ⟨.ok, v.setWidth 32⟩)) := by
  unfold execImgPop at h
  split at h
  · next hs => exact .inl ⟨hs, ((raise_next ..).mp h).symm⟩
  · next hs =>
    have hs' : s.status = .signed := not_not.mp hs
    split at h
    · next hc => exact .inr (.inl ⟨hs', hc, ((raise_next ..).mp h).symm⟩)
    · next hc =>
      obtain ⟨v, hv, hk⟩ := withAccess_next h
      exact .inr (.inr ⟨hs', hc, v, memRead1_eq_ok.mp hv, ((respondOk_next ..).mp hk).symm⟩)

/-- What RDREG can do (43_system.md R161). -/
theorem execRdreg_next {s t : State} {n : Byte} (h : execRdreg n s = .next t) :
    (∃ r, regOfNumber n = some r ∧ t = s.setResp (some ⟨.ok, s.readReg r⟩)) ∨
    (regOfNumber n = none ∧ t = s.setResp (some ⟨.badReg, 0⟩)) := by
  unfold execRdreg at h
  split at h
  · next r hr => exact .inl ⟨r, hr, ((respondOk_next ..).mp h).symm⟩
  · next hr => exact .inr ⟨hr, ((raise_next ..).mp h).symm⟩

theorem regOfNumber_regNumber (r : Reg) : regOfNumber (regNumber r) = some r := by cases r <;> rfl

/-- SIGN on fewer than 256 bytes (42_signer.md R134). -/
theorem execSign_tooSmall {s : State} (h : s.len.toNat < 256) :
    execSign s = .next ((s.forgetResult.setStatus .tooSmall).setResp (some ⟨.imageTooSmall, 0⟩)) := by
  have : s.forgetResult.len.toNat < Config.minLen := by simpa [Config.minLen] using h
  simp only [execSign, signChecked, this, if_true]
  rfl

theorem crcScan_forget (s : State) (a n : Nat) (c : Word) : s.forgetResult.crcScan a n c = s.crcScan a n c :=
  crcScan_congr fun _ _ => rfl

/-- SIGN on a readable header with the wrong magic (R135). -/
theorem execSign_badMagic {s : State} {m v : Word} (h : 256 ≤ s.len.toNat) (h0 : s.memRead4 0 = .ok m)
    (h4 : s.memRead4 4 = .ok v) (hm : m ≠ Config.magic) :
    execSign s =
      .next (((s.forgetResult.setStatus .badMagic).setErrval m).setResp (some ⟨.invalidMagic, m⟩)) := by
  have hl : ¬ s.forgetResult.len.toNat < Config.minLen := by simp [Config.minLen]; omega
  have f0 : s.forgetResult.memRead4 0 = .ok m := h0
  have f4 : s.forgetResult.memRead4 4 = .ok v := h4
  simp only [execSign, signChecked, hl, if_false, signHeader, f0, f4, withAccess_ok, hm, ne_eq, not_false_eq_true,
    if_true]
  rfl

/-- The state a successful SIGN leaves (R132): `v` is the version, `c` the payload's raw remainder. -/
def State.signedWith (s : State) (v c : Word) : State :=
  ((s.forgetResult.setImg (Memory.patched s.img (s.len - 256) (c ^^^ Config.crcXorOut))).publish c Config.magic v
    (s.len - 256) (c ^^^ Config.crcXorOut)).setResp (some ⟨.ok, c ^^^ Config.crcXorOut⟩)

/-- SIGN on a readable image with the right magic (R132). -/
theorem execSign_signed {s : State} {v c : Word} (h : 256 ≤ s.len.toNat) (h0 : s.memRead4 0 = .ok Config.magic)
    (h4 : s.memRead4 4 = .ok v) (hc : s.crcScan 256 (s.len.toNat - 256) Config.crcInit = .ok c) :
    execSign s = .next (s.signedWith v c) := by
  have hl : ¬ s.forgetResult.len.toNat < Config.minLen := by simp [Config.minLen]; omega
  have f0 : s.forgetResult.memRead4 0 = .ok Config.magic := h0
  have f4 : s.forgetResult.memRead4 4 = .ok v := h4
  have fc : s.forgetResult.crcScan Config.payloadOffset (s.forgetResult.len.toNat - Config.payloadOffset)
      Config.crcInit = .ok c := by rw [crcScan_forget]; exact hc
  simp only [execSign, signChecked, hl, if_false, signHeader, f0, f4, withAccess_ok, ne_eq, not_true_eq_false,
    signPayload, fc, patchHeader_eq]
  rfl

/-- What SIGN can do (R132). -/
theorem execSign_next {s t : State} (h : execSign s = .next t) :
    (s.len.toNat < 256 ∧ t = (s.forgetResult.setStatus .tooSmall).setResp (some ⟨.imageTooSmall, 0⟩)) ∨
    (256 ≤ s.len.toNat ∧ ∃ m v, s.memRead4 0 = .ok m ∧ s.memRead4 4 = .ok v ∧ m ≠ Config.magic ∧
      t = ((s.forgetResult.setStatus .badMagic).setErrval m).setResp (some ⟨.invalidMagic, m⟩)) ∨
    (256 ≤ s.len.toNat ∧ ∃ v c, s.memRead4 0 = .ok Config.magic ∧ s.memRead4 4 = .ok v ∧
      s.crcScan 256 (s.len.toNat - 256) Config.crcInit = .ok c ∧ t = s.signedWith v c) := by
  by_cases hl : s.len.toNat < 256
  · rw [execSign_tooSmall hl] at h
    exact .inl ⟨hl, by simpa using h.symm⟩
  · have hle : 256 ≤ s.len.toNat := by omega
    have hl' : ¬ s.forgetResult.len.toNat < Config.minLen := by simp [Config.minLen]; omega
    have h' := h
    simp only [execSign, signChecked, hl', if_false, signHeader] at h'
    obtain ⟨m, h0, h'⟩ := withAccess_next h'
    obtain ⟨v, h4, h'⟩ := withAccess_next h'
    by_cases hm : m = Config.magic
    · subst hm
      simp only [ne_eq, not_true_eq_false, if_false, signPayload] at h'
      obtain ⟨c, hc, _⟩ := withAccess_next h'
      have hc' : s.crcScan 256 (s.len.toNat - 256) Config.crcInit = .ok c := by
        rw [← crcScan_forget]; exact hc
      rw [execSign_signed hle h0 h4 hc'] at h
      exact .inr (.inr ⟨hle, v, c, h0, h4, hc', by simpa using h.symm⟩)
    · rw [execSign_badMagic hle h0 h4 hm] at h
      exact .inr (.inl ⟨hle, m, v, h0, h4, hm, by simpa using h.symm⟩)

/-- SIGN of a loaded image (R133): the three outcomes, by the image alone. -/
theorem execSign_image {s : State} {I : List Byte} (hI : s.image = some I) :
    execSign s =
      if I.length < 256 then .next ((s.forgetResult.setStatus .tooSmall).setResp (some ⟨.imageTooSmall, 0⟩))
      else if le32 I 0 ≠ Config.magic then
        .next (((s.forgetResult.setStatus .badMagic).setErrval (le32 I 0)).setResp (some ⟨.invalidMagic, le32 I 0⟩))
      else .next (s.signedWith (le32 I 4) (crcFeed Config.crcInit (payload I))) := by
  have hlen : I.length = s.len.toNat := (image_eq_some.mp hI).1
  split
  · next hl => exact execSign_tooSmall (by omega)
  · next hl =>
    have h4 := memRead4_image hI (a := 4) (by omega)
    have h0 := memRead4_image hI (a := 0) (by omega)
    split
    · next hm => exact execSign_badMagic (by omega) h0 h4 hm
    · next hm =>
      have hm' : le32 I 0 = Config.magic := not_not.mp hm
      rw [hm'] at h0
      have hc := crcScan_image hI (a := 256) (n := s.len.toNat - 256) (by omega) Config.crcInit
      have htake : (I.drop 256).take (s.len.toNat - 256) = payload I := by
        rw [List.take_of_length_le (by simp; omega)]; rfl
      rw [htake] at hc
      exact execSign_signed (by omega) h0 h4 hc

end Sys2Proof.Machine
end

