-- ==== Sys2Proof/Laws/Exec.lean ====
section
/-! SUPPORT. What a command can do, said once for all nine: the one inversion lemma of `exec`. -/

namespace Sys2Proof.Machine

/-- If a command answers a next state, it is one of these. -/
theorem exec_next {i : Instr} {s t : State} (h : exec i s = .next t) :
    (i = .crcInit ∧ t = (s.setCrc Config.crcInit).setResp (some ⟨.ok, 0⟩)) ∨
    (∃ b, i = .crcByte b ∧ t = (s.setCrc (crcStep s.crc b)).setResp (some ⟨.ok, 0⟩)) ∨
    (i = .crcRead ∧ t = s.setResp (some ⟨.ok, s.crc ^^^ Config.crcXorOut⟩)) ∨
    (i = .imgClear ∧ t = s.emptyBuffer.setResp (some ⟨.ok, 0⟩)) ∨
    (∃ b, i = .imgPush b ∧ execImgPush b s = .next t) ∨
    (i = .imgPop ∧ execImgPop s = .next t) ∨
    (i = .sign ∧ execSign s = .next t) ∨
    (∃ n, i = .rdreg n ∧ execRdreg n s = .next t) ∨
    (i = .sysReset ∧ t = s.resetRegisters.setResp (some ⟨.ok, 0⟩)) := by
  cases i with
  | crcInit => exact .inl ⟨rfl, ((respondOk_next ..).mp h).symm⟩
  | crcByte b => exact .inr (.inl ⟨b, rfl, ((respondOk_next ..).mp h).symm⟩)
  | crcRead => exact .inr (.inr (.inl ⟨rfl, ((respondOk_next ..).mp h).symm⟩))
  | imgClear => exact .inr (.inr (.inr (.inl ⟨rfl, ((respondOk_next ..).mp h).symm⟩)))
  | imgPush b => exact .inr (.inr (.inr (.inr (.inl ⟨b, rfl, h⟩))))
  | imgPop => exact .inr (.inr (.inr (.inr (.inr (.inl ⟨rfl, h⟩)))))
  | sign => exact .inr (.inr (.inr (.inr (.inr (.inr (.inl ⟨rfl, h⟩))))))
  | rdreg n => exact .inr (.inr (.inr (.inr (.inr (.inr (.inr (.inl ⟨n, rfl, h⟩)))))))
  | sysReset => exact .inr (.inr (.inr (.inr (.inr (.inr (.inr (.inr ⟨rfl, ((respondOk_next ..).mp h).symm⟩)))))))

end Sys2Proof.Machine
end

