-- ==== Sys2Proof/Laws/PerInstr.lean ====
section
/-! SUPPORT. Statements for all commands, one lemma per constructor. SelectsOwnRow: the encoding of a command selects the
row of its own mnemonic in the opcode table and no other row (30_encoding.md R73). -/

namespace Sys2Proof.Laws.SelectsOwnRow

/-- The word of `i` selects exactly one row of the table, the one with the mnemonic of `i` (R73). -/
def Statement (i : Instr) : Prop := (rowsSelected (encode i)).map OpRow.mnemonic = [mnemonic i]

/-- For a command with an operand byte: checked on every value of the byte. -/
theorem of_all_bytes {f : Byte → Instr}
    (h : ∀ n, n < 256 → (rowsSelected (encode (f (BitVec.ofNat 8 n)))).map OpRow.mnemonic =
      [mnemonic (f (BitVec.ofNat 8 n))]) (b : Byte) : Statement (f b) := by
  have := h b.toNat b.isLt
  rwa [BitVec.ofNat_toNat, BitVec.setWidth_eq] at this

theorem crcInit : Statement .crcInit := by unfold Statement; decide
set_option maxRecDepth 20000 in
theorem crcByte (b : Byte) : Statement (.crcByte b) := of_all_bytes (by decide) b
theorem crcRead : Statement .crcRead := by unfold Statement; decide
theorem imgClear : Statement .imgClear := by unfold Statement; decide
set_option maxRecDepth 20000 in
theorem imgPush (b : Byte) : Statement (.imgPush b) := of_all_bytes (by decide) b
theorem imgPop : Statement .imgPop := by unfold Statement; decide
theorem sign : Statement .sign := by unfold Statement; decide
set_option maxRecDepth 20000 in
theorem rdreg (n : Byte) : Statement (.rdreg n) := of_all_bytes (by decide) n
theorem sysReset : Statement .sysReset := by unfold Statement; decide

end Sys2Proof.Laws.SelectsOwnRow
end

