-- ==== Sys2Proof/Laws/Run.lean ====
section
/-! SUPPORT. Running the machine several steps: `stepN` is the host's run, and runs compose. -/

namespace Sys2Proof

open Machine

theorem run_eq_stepN (k : Nat) (s : State) : Host.Core.run core k s = stepN k s := by
  induction k generalizing s with
  | zero => rfl
  | succ k ih =>
    simp only [Host.Core.run]
    split
    · next s' hs =>
      have h : step s = .next s' := hs
      simp only [stepN, h]
      exact ih s'
    · next f hs =>
      have h : step s = .fault f := hs
      simp only [stepN, h]
      rfl
    · next r hs =>
      have h : step s = .refused r := hs
      simp only [stepN, h]
      rfl

theorem stepN_succ {k : Nat} {s t : State} (h : step s = .next t) : stepN (k + 1) s = stepN k t := by
  simp only [stepN, h]

/-- A run of `m + n` steps is a run of `m` steps and then one of `n`. -/
theorem stepN_add {m n : Nat} {s t : State} (h : stepN m s = .next t) : stepN (m + n) s = stepN n t := by
  induction m generalizing s with
  | zero =>
    simp only [stepN, Host.Outcome.next.injEq] at h
    rw [h, Nat.zero_add]
  | succ m ih =>
    rw [Nat.add_right_comm]
    simp only [stepN] at h ⊢
    cases hs : step s with
    | next s' => simp only [hs] at h; exact ih h
    | fault f => simp [hs] at h
    | refused r => simp [hs] at h

end Sys2Proof
end

