-- ==== Sys2Proof/Tests/Slice0.lean ====
section
/-! SUPPORT. Tests of the model against the spec's own examples and vectors (95_test_vectors.md), the smoke test of
WellFormed, and for each obligation with hypotheses a witness that meets them together. -/

namespace Sys2Proof.Tests

open Machine

/-! ### Helpers -/

/-- The state a command came to. -/
def after : Result → State
  | .next t => t
  | .fault _ => State.reset
  | .refused _ => State.reset

/-- It is a next state. -/
def completes : Result → Bool
  | .next _ => true
  | .fault _ => false
  | .refused _ => false

theorem next_of_completes {r : Result} (h : completes r = true) : r = .next (after r) := by
  cases r with
  | next t => rfl
  | fault f => cases h
  | refused f => cases h

/-- An image memory holding a list of bytes from offset 0. -/
def memoryOf (bs : List Byte) : Memory := bs.zipIdx.map fun p => (p.2, p.1)

/-- An idle block with an image loaded. -/
def loaded (bs : List Byte) : State :=
  { State.reset with img := memoryOf bs, len := BitVec.ofNat 32 bs.length }

/-- A command's result from a state: the response and the state after. -/
def respOf (i : Instr) (s : State) : Option Response := (after (exec i s)).resp

/-- The source's scenario (E1, S1): 260 bytes. -/
def scenario : List Byte :=
  [0xEF, 0xBE, 0xAD, 0xDE, 0x01, 0x00, 0x00, 0x00] ++ List.replicate 248 0x00 ++ [0xAA, 0xBB, 0xCC, 0xDD]

/-- 256 bytes with the right magic: the least valid image (S2 without its filler). -/
def least : List Byte := [0xEF, 0xBE, 0xAD, 0xDE] ++ List.replicate 252 0x00

/-- 256 bytes with one bit of the magic wrong (S5). -/
def wrongMagic : List Byte := [0xEE, 0xBE, 0xAD, 0xDE] ++ List.replicate 252 0x00

/-- 255 bytes, one too few, with the big-endian magic (S3b). -/
def shortImage : List Byte := [0xDE, 0xAD, 0xBE, 0xEF] ++ List.replicate 251 0x00

/-- The state after the scenario has been signed (S1). -/
def signedScenario : State := after (exec .sign (loaded scenario))

/-! ### WellFormed: a term that each check refuses, and one it passes -/

theorem test_wf_crcByte : AsmLine.wellFormed (.crcByte 256) = false ∧ AsmLine.wellFormed (.crcByte 255) = true := by decide
theorem test_wf_imgPush : AsmLine.wellFormed (.imgPush 256) = false ∧ AsmLine.wellFormed (.imgPush 255) = true := by decide
theorem test_wf_rdreg : AsmLine.wellFormed (.rdreg 256) = false ∧ AsmLine.wellFormed (.rdreg 255) = true := by decide
theorem test_wf_crcBytes :
    AsmLine.wellFormed (.crcBytes [0, 256]) = false ∧ AsmLine.wellFormed (.crcBytes [0, 255]) = true := by decide
theorem test_wf_crcOf : AsmLine.wellFormed (.crcOf [256]) = false ∧ AsmLine.wellFormed (.crcOf []) = true := by decide
theorem test_wf_imgBytes :
    AsmLine.wellFormed (.imgBytes [300]) = false ∧ AsmLine.wellFormed (.imgBytes [30]) = true := by decide
theorem test_wf_imgFill :
    AsmLine.wellFormed (.imgFill 2 256) = false ∧ AsmLine.wellFormed (.imgFill 1000 255) = true := by decide
theorem test_wf_imgLoad :
    AsmLine.wellFormed (.imgLoad [1, 2, 256]) = false ∧ AsmLine.wellFormed (.imgLoad [1, 2]) = true := by decide
/-- No command is ill formed: its operand is a byte by type (R72, R76). -/
theorem test_wf_instr : ∀ i : Instr, i.wellFormed = true := by intro i; cases i <;> rfl

/-! ### Decoding: words written out bit by bit from R73 -/

theorem test_decode_crcInit : decode 0b0001000000000000 = .ok .crcInit := by decide
theorem test_decode_crcByte : decode 0b0001000110101010 = .ok (.crcByte 0b10101010) := by decide
theorem test_decode_crcRead : decode 0b0001001000000000 = .ok .crcRead := by decide
theorem test_decode_imgClear : decode 0b0010000000000000 = .ok .imgClear := by decide
theorem test_decode_imgPush : decode 0b0010000111101111 = .ok (.imgPush 0b11101111) := by decide
theorem test_decode_imgPop : decode 0b0010001000000000 = .ok .imgPop := by decide
theorem test_decode_sign : decode 0b0011000000000000 = .ok .sign := by decide
theorem test_decode_rdreg : decode 0b0100000000000111 = .ok (.rdreg 0b00000111) := by decide
theorem test_decode_sysReset : decode 0b1111000000000000 = .ok .sysReset := by decide
/-- 95 section 2.3: unassigned groups, unassigned functions, an operand in format N. -/
theorem test_decode_illegal :
    decode 0x0000 = .error .unassignedGroup ∧ decode 0x2300 = .error .unassignedFunction ∧
    decode 0x3100 = .error .unassignedFunction ∧ decode 0xF100 = .error .unassignedFunction ∧
    decode 0x1201 = .error .operandNotZero ∧ decode 0x2001 = .error .operandNotZero ∧
    decode 0x2201 = .error .operandNotZero ∧ decode 0xF001 = .error .operandNotZero := by decide
/-- The examples of R79, encoded. -/
theorem test_encode : encode (.crcByte 0xAA) = 0x11AA ∧ encode (.imgPush 0xEF) = 0x21EF ∧ encode (.rdreg 7) = 0x4007 ∧
    encode .sign = 0x3000 ∧ encode .sysReset = 0xF000 := by decide
/-- The word of a table row is fetched as the first command after reset. -/
theorem test_withFetchWord :
    step (State.reset.withFetchWord 16 0x21EF) = exec (.imgPush 0xEF) State.reset ∧
    decodeTableWord 16 0x21EF = some (.imgPush 0xEF) := ⟨rfl, by decide⟩

/-! ### One step of each command, from the spec's examples -/

/-- R92's example. -/
theorem test_crcInit : (after (exec .crcInit { State.reset with crc := 0x12345678 })).crc = 0xFFFFFFFF := by decide
/-- R94's example, and the last row of 95 section 2.1. -/
theorem test_crcByte :
    (after (exec (.crcByte 0xAA) State.reset)).crc = 0x1BFE5A84 ∧
    (after (exec (.crcByte 0x9A) { State.reset with crc := 0x12345678 })).crc = 0x4E16B702 := by decide
/-- R94's bit trace. -/
theorem test_crcShift_trace :
    crcShift 0xFFFFFF55 = 0x92477C8A ∧ crcShift 0x92477C8A = 0x4923BE45 ∧ crcShift 0x4923BE45 = 0xC9295C02 ∧
    crcShift 0xC9295C02 = 0x6494AE01 ∧ crcShift 0x6494AE01 = 0xDFF2D420 ∧ crcShift 0xDFF2D420 = 0x6FF96A10 ∧
    crcShift 0x6FF96A10 = 0x37FCB508 ∧ crcShift 0x37FCB508 = 0x1BFE5A84 := by decide
/-- V2, V7, V8, V11 of 95 section 2.2. -/
theorem test_crc32 :
    crc32 [0x00] = 0xD202EF8D ∧ crc32 [0x61, 0x62, 0x63] = 0x352441C2 ∧
    crc32 [0xAA, 0xBB, 0xCC, 0xDD] = 0x55B401A7 ∧ crc32 [0xFF, 0xFF, 0xFF, 0xFF] = 0xFFFFFFFF := by decide +kernel
/-- R96's example. -/
theorem test_crcRead :
    respOf .crcRead { State.reset with crc := 0xAA4BFE58 } = some ⟨.ok, 0x55B401A7⟩ := by decide
/-- R111's example and B9: CRC is kept. -/
theorem test_imgClear :
    let t := after (exec .imgClear
      { State.reset with status := .badMagic, len := 260, errval := 0x12345678, crc := 0x11223344 })
    t.len = 0 ∧ t.status = .idle ∧ t.errval = 0 ∧ t.crc = 0x11223344 ∧ t.resp = some ⟨.ok, 0⟩ := by decide
/-- B1. -/
theorem test_imgPush : after (exec (.imgPush 0xEF) State.reset) =
    { State.reset with img := [(0, 0xEF)], len := 1, resp := some ⟨.ok, 0⟩ } := rfl
/-- B3, for any capacity: a full idle buffer refuses. -/
theorem test_imgPush_full :
    respOf (.imgPush 0x55) { State.reset with len := BitVec.ofNat 32 Config.imgCap } = some ⟨.imgFull, 0⟩ := by
  have h : (BitVec.ofNat 32 Config.imgCap).toNat = Config.imgCap := by
    have := Config.imgCap_le
    rw [BitVec.toNat_ofNat]; omega
  have hc : Config.atImgCap (BitVec.ofNat 32 Config.imgCap).toNat = true := (Config.atImgCap_iff _).mpr h
  simp only [respOf, exec, execImgPush, State.reset, ne_eq, not_true_eq_false, if_false, hc, if_true]
  rfl
/-- B7. -/
theorem test_imgPop :
    let t := after (exec .imgPop { State.reset with status := .signed, len := 260, rptr := 12, img := [(12, 0xA7)] })
    t.rptr = 13 ∧ t.resp = some ⟨.ok, 0x000000A7⟩ := by decide
/-- B8. -/
theorem test_imgPop_end :
    respOf .imgPop { State.reset with status := .signed, len := 260, rptr := 260 } = some ⟨.endOfImage, 0⟩ := by decide
/-- S1: the source's scenario. -/
theorem test_sign_scenario :
    signedScenario.resp = some ⟨.ok, 0x55B401A7⟩ ∧ signedScenario.status = .signed ∧ signedScenario.rVersion = 1 ∧
    signedScenario.rSize = 4 ∧ signedScenario.rChecksum = 0x55B401A7 ∧ signedScenario.crc = 0xAA4BFE58 ∧
    (signedScenario.img.take 16).map (·.2) =
      [0xEF, 0xBE, 0xAD, 0xDE, 0x01, 0x00, 0x00, 0x00, 0x04, 0x00, 0x00, 0x00, 0xA7, 0x01, 0xB4, 0x55] ∧
    signedScenario.img.drop 16 = (memoryOf scenario).drop 16 := by decide +kernel
/-- S3b and S5: the length is tested first; a magic with one bit wrong. -/
theorem test_sign_errors :
    respOf .sign (loaded shortImage) = some ⟨.imageTooSmall, 0⟩ ∧
    respOf .sign (loaded wrongMagic) = some ⟨.invalidMagic, 0xDEADBEEE⟩ := by decide +kernel
/-- Y1, Y2. -/
theorem test_rdreg :
    respOf (.rdreg 0x07) signedScenario = some ⟨.ok, 0x55B401A7⟩ ∧
    respOf (.rdreg 0x06) signedScenario = some ⟨.ok, 0x00000004⟩ := by decide +kernel
/-- Y3, and R30's last row. -/
theorem test_rdreg_reserved :
    respOf (.rdreg 0x08) State.reset = some ⟨.badReg, 0⟩ ∧ respOf (.rdreg 0xFF) State.reset = some ⟨.badReg, 0⟩ ∧
    respOf (.rdreg 0x13) State.reset = some ⟨.ok, 0x100⟩ ∧ respOf (.rdreg 0x15) State.reset = some ⟨.badReg, 0⟩ := by
  decide
/-- Y6. -/
theorem test_sysReset :
    let t := after (exec .sysReset { State.reset with status := .signed, len := 260, crc := 0xAA4BFE58, rptr := 3 })
    t.crc = 0xFFFFFFFF ∧ t.len = 0 ∧ t.rptr = 0 ∧ t.status = .idle ∧ t.resp = some ⟨.ok, 0⟩ := by decide
/-- An illegal word, and the hardware reset. -/
theorem test_step_illegal_and_reset :
    (after (step { State.reset with input := [.command 0xFFFF] })).resp = some ⟨.illegalCmd, 0⟩ ∧
    (after (step { State.reset with len := 9, crc := 5, input := [.reset] })).crc = 0xFFFFFFFF := by decide
/-- R79: a line as the assembler reads it, with a comment; a wrong operand; R80: IMG.FILL with a comma. -/
theorem test_asm :
    assembleText "RDREG R_CHECKSUM ; the checksum" = .ok [0x4007] ∧ assembleText "IMG.PUSH 256" = .error .badOperand ∧
    assembleText "IMG.FILL 2, 0x00" = .ok [0x2100, 0x2100] := by decide +kernel

/-! ### Witnesses: each obligation's hypotheses are met together -/

/-- A full-length length word counts to the capacity. -/
theorem imgCap_word : (BitVec.ofNat 32 Config.imgCap).toNat = Config.imgCap := by
  have := Config.imgCap_le
  rw [BitVec.toNat_ofNat]; omega

/-- One below it. -/
theorem imgCap_pred_word : (BitVec.ofNat 32 (Config.imgCap - 1)).toNat = Config.imgCap - 1 := by
  have := Config.imgCap_le
  rw [BitVec.toNat_ofNat]; omega

theorem image_scenario : (loaded scenario).image = some scenario := by decide +kernel
theorem image_least : (loaded least).image = some least := by decide +kernel
theorem image_wrongMagic : (loaded wrongMagic).image = some wrongMagic := by decide +kernel
theorem image_short : (loaded shortImage).image = some shortImage := by decide +kernel
theorem valid_scenario : validImage scenario := ⟨by decide +kernel, by decide +kernel⟩
theorem valid_least : validImage least := ⟨by decide +kernel, by decide +kernel⟩

/-- The contract signs the least valid image. -/
theorem sign_least : ∃ O, signImage least = .ok O := by
  have h : (match signImage least with | .ok _ => true | .error _ => false) = true := by decide +kernel
  cases hs : signImage least with
  | ok O => exact ⟨O, rfl⟩
  | error e => rw [hs] at h; cases h

theorem signed_scenario_next : exec .sign (loaded scenario) = .next signedScenario :=
  next_of_completes (by decide +kernel)

theorem signed_scenario_status : signedScenario.status = .signed := by decide +kernel

theorem witness_CrcInitRestartsSession : exec .crcInit State.reset = .next (after (exec .crcInit State.reset)) := rfl

theorem witness_CrcByteFeedsOneByte :
    (loaded scenario).image = some scenario ∧ exec .sign (loaded scenario) = .next signedScenario ∧
      signedScenario.status = .signed :=
  ⟨image_scenario, signed_scenario_next, signed_scenario_status⟩

theorem witness_CrcReadAnswersChecksum :
    exec .crcInit State.reset = .next (after (exec .crcInit State.reset)) ∧
    exec .crcRead State.reset = .next (after (exec .crcRead State.reset)) ∧
    ({ State.reset with crc := 0xAA4BFE58 } : State).crc = 0xAA4BFE58 := ⟨rfl, rfl, rfl⟩

theorem witness_EmptyPayloadHasChecksumZero :
    (loaded least).image = some least ∧ least.length = 256 ∧ le32 least 0 = 0xDEADBEEF :=
  ⟨image_least, by decide +kernel, by decide +kernel⟩

theorem witness_SessionChecksumIsIncremental :
    let ps : List (List Byte) := [[0x31], [], [0x32, 0x33]]
    ps ≠ [] ∧ ({ State.reset with input := crcSession ps ++ [.reset] } : State).input = crcSession ps ++ [.reset] :=
  ⟨by decide +kernel, rfl⟩

theorem witness_ImgClearEmptiesBuffer :
    let s := { State.reset with status := .tooSmall }
    exec .imgClear s = .next (after (exec .imgClear s)) ∧ s.status ≠ .idle ∧
      (after (exec .imgClear s)).status = .idle := ⟨rfl, by decide +kernel, rfl⟩

/-- The accepted push at both ends of its range, and the two refusals. -/
theorem witness_ImgPushAppendsOrRefuses :
    (State.reset.status = .idle ∧ State.reset.len.toNat < Config.imgCap) ∧
    (let s := { State.reset with len := BitVec.ofNat 32 (Config.imgCap - 1) };
      s.status = .idle ∧ s.len.toNat < Config.imgCap) ∧
    ({ State.reset with status := .signed } : State).status ≠ .idle ∧
    (let s := { State.reset with len := BitVec.ofNat 32 Config.imgCap };
      s.status = .idle ∧ s.len.toNat = Config.imgCap) := by
  have hc := Config.imgCap_ge
  refine ⟨⟨rfl, ?_⟩, ⟨rfl, ?_⟩, by decide +kernel, rfl, imgCap_word⟩
  · show (0 : Word).toNat < _
    have : (0 : Word).toNat = 0 := rfl
    omega
  · show (BitVec.ofNat 32 (Config.imgCap - 1)).toNat < _
    rw [imgCap_pred_word]; omega

/-- The accepted pop at both ends of its range, and the two refusals. -/
theorem witness_ImgPopDeliversOrRefuses :
    (let s := { loaded least with status := .signed };
      s.status = .signed ∧ s.rptr.toNat < s.len.toNat ∧ Memory.read s.img s.rptr.toNat = some 0xEF) ∧
    (let s := { loaded least with status := .signed, rptr := 255 };
      s.status = .signed ∧ s.rptr.toNat < s.len.toNat ∧ Memory.read s.img s.rptr.toNat = some 0x00) ∧
    State.reset.status ≠ .signed ∧
    (let s := { loaded least with status := .signed, rptr := 256 };
      s.status = .signed ∧ s.rptr = s.len) := by decide +kernel

/-- Each transition of the table. -/
theorem witness_StatusTransitions :
    completes (exec .imgClear State.reset) = true ∧ completes (exec .sysReset State.reset) = true ∧
    (completes (exec .sign (loaded shortImage)) = true ∧ (loaded shortImage).len.toNat < 256) ∧
    (completes (exec .sign (loaded wrongMagic)) = true ∧ 256 ≤ (loaded wrongMagic).len.toNat ∧
      (loaded wrongMagic).memRead4 0 = .ok 0xDEADBEEE) ∧
    (completes (exec .sign (loaded least)) = true ∧ 256 ≤ (loaded least).len.toNat ∧
      (loaded least).memRead4 0 = .ok 0xDEADBEEF) ∧
    completes (exec .crcRead State.reset) = true ∧
    (completes (exec (.imgPush 1) State.reset) = true ∧
      (after (exec (.imgPush 1) State.reset)).resp = some ⟨.ok, 0⟩) ∧
    (completes (exec .imgPop signedScenario) = true ∧
      (after (exec .imgPop signedScenario)).resp = some ⟨.ok, 0xEF⟩) ∧
    ({ State.reset with input := [.reset] } : State).input = [.reset] := by decide +kernel

theorem witness_LoadedImageIsWhatWasPushed :
    ([0xEF, 0xBE] : List Byte).length ≤ Config.imgCap ∧
    ({ signedScenario with input := loadImage [0xEF, 0xBE] ++ [.reset] } : State).input =
      loadImage [0xEF, 0xBE] ++ [.reset] := by
  have := Config.imgCap_ge
  refine ⟨?_, rfl⟩
  show 2 ≤ _
  omega

theorem signed_scenario_image : signedScenario.image.isSome = true := by decide +kernel

theorem witness_UnloadDeliversImage :
    ∃ I, signedScenario.status = .signed ∧ signedScenario.rptr = 0 ∧ signedScenario.image = some I ∧
      ({ signedScenario with input := unload (I.length + 1) } : State).image = some I := by
  obtain ⟨I, hI⟩ := Option.isSome_iff_exists.mp signed_scenario_image
  refine ⟨I, signed_scenario_status, by decide +kernel, hI, ?_⟩
  simp only [State.image] at hI ⊢
  exact hI

theorem witness_LoadSignUnloadDeliversContract :
    least.length ≤ Config.imgCap ∧ (∃ O, signImage least = .ok O) ∧
    (let es := loadImage least ++ issue [.sign] ++ unload (least.length + 1);
      ({ State.reset with input := es } : State).input = es) := by
  have := Config.imgCap_ge
  have hl : least.length = 256 := by decide +kernel
  exact ⟨by omega, sign_least, rfl⟩

/-- The three outcomes at the boundary lengths 255 and 256, and the source's example. -/
theorem witness_SignThreeOutcomes :
    (loaded shortImage).len.toNat = 255 ∧
    ((loaded wrongMagic).image = some wrongMagic ∧ wrongMagic.length = 256 ∧ le32 wrongMagic 0 ≠ 0xDEADBEEF) ∧
    ((loaded least).image = some least ∧ least.length = 256 ∧ le32 least 0 = 0xDEADBEEF) ∧
    (loaded scenario).image = some scenario :=
  ⟨by decide +kernel, ⟨image_wrongMagic, by decide +kernel, by decide +kernel⟩, ⟨image_least, by decide +kernel, by decide +kernel⟩, image_scenario⟩

theorem witness_SignRefinesContract : (loaded scenario).image = some scenario := image_scenario

theorem witness_SignRejectsExactlyShortImages :
    ((loaded shortImage).image = some shortImage ∧ shortImage.length = 255) ∧
    ((loaded least).image = some least ∧ le32 least 0 = 0xDEADBEEF ∧ least.length = 256) :=
  ⟨⟨image_short, by decide +kernel⟩, image_least, by decide +kernel, by decide +kernel⟩

theorem witness_SignRejectsExactlyWrongMagic :
    let I : List Byte := List.replicate 252 0x00
    ((loaded wrongMagic).image = some wrongMagic ∧ 256 ≤ wrongMagic.length) ∧
    ((loaded ([0xDE, 0xAD, 0xBE, 0xEF] ++ I)).image = some ([0xDE, 0xAD, 0xBE, 0xEF] ++ I) ∧ 252 ≤ I.length) := by
  decide +kernel

theorem witness_TestsRunInOrder :
    decode 0x0000 = .error .unassignedGroup ∧
    ({ State.reset with status := .signed, len := BitVec.ofNat 32 Config.imgCap } : State).len.toNat = Config.imgCap ∧
    (State.reset.status ≠ .signed ∧ State.reset.rptr = State.reset.len) ∧
    ((loaded shortImage).len.toNat < 256 ∧ (loaded shortImage).memRead4 0 = .ok 0xEFBEADDE) :=
  ⟨by decide +kernel, imgCap_word, by decide +kernel, by decide +kernel⟩

theorem witness_VersionIsOpaque :
    (loaded least).image = some least ∧ 256 ≤ least.length ∧
    (loaded (putLe32 least 4 0x12345678)).image = some (putLe32 least 4 0x12345678) := by decide +kernel

theorem witness_SignChecksumCoversPayloadOnly :
    let J := putLe32 least 32 0x01020304
    ((loaded least).image = some least ∧ (loaded J).image = some J ∧ validImage least ∧ validImage J ∧
      least.drop 256 = J.drop 256 ∧ completes (exec .sign (loaded least)) = true ∧
      completes (exec .sign (loaded J)) = true) ∧
    (completes (exec .sign (loaded wrongMagic)) = true ∧
      (after (exec .sign (loaded wrongMagic))).status ≠ .signed) :=
  ⟨⟨image_least, by decide +kernel, valid_least, ⟨by decide +kernel, by decide +kernel⟩, by decide +kernel, by decide +kernel,
    by decide +kernel⟩, by decide +kernel⟩

theorem witness_SignSizeIsPayloadLength : (loaded scenario).image = some scenario ∧ validImage scenario :=
  ⟨image_scenario, valid_scenario⟩

/-- Two states with the same image and nothing else in common; and an image whose bytes 8 to 15 differ. -/
theorem witness_SignIsPure :
    let J := putLe32 (putLe32 scenario 8 0xFFFFFFFF) 12 0xFFFFFFFF
    (loaded scenario).image = some scenario ∧
    ({ loaded scenario with status := .badMagic, crc := 7, rptr := 3, errval := 9 } : State).image = some scenario ∧
    256 ≤ scenario.length ∧ (loaded J).image = some J := by decide +kernel

/-- The last clause's images differ in the first reserved byte and in the last padding byte. -/
theorem witness_SignPassesOtherBytesThrough :
    let J := (scenario.set 16 0x77).set 255 0x88
    exec .sign (loaded scenario) = .next signedScenario ∧ (∃ O, signImage least = .ok O) ∧
    ((loaded scenario).image = some scenario ∧ (loaded J).image = some J ∧ 256 ≤ scenario.length ∧
      J.length = scenario.length ∧ J.take 16 = scenario.take 16 ∧ J.drop 256 = scenario.drop 256 ∧ J ≠ scenario) :=
  ⟨signed_scenario_next, sign_least, by decide +kernel⟩

theorem witness_SignIsIdempotent :
    exec .sign (loaded scenario) = .next signedScenario ∧ ∃ O, signImage least = .ok O :=
  ⟨signed_scenario_next, sign_least⟩

theorem witness_SignFailureIsClean :
    (completes (exec .sign (loaded wrongMagic)) = true ∧
      (after (exec .sign (loaded wrongMagic))).status ≠ .signed) ∧
    (completes (exec .sign (loaded shortImage)) = true ∧
      (after (exec .sign (loaded shortImage))).status ≠ .signed) := by decide +kernel

theorem witness_SignAgreesWithCrcCommands :
    (loaded scenario).image = some scenario ∧ validImage scenario ∧
    ({ State.reset with input := crcSession [payload scenario] ++ [] } : State).input =
      crcSession [payload scenario] ++ [] := ⟨image_scenario, valid_scenario, rfl⟩

theorem witness_ResultsStayReadable :
    ((loaded scenario).image = some scenario ∧ validImage scenario) ∧ completes (exec .imgPop signedScenario) = true :=
  ⟨⟨image_scenario, valid_scenario⟩, by decide +kernel⟩

theorem witness_FieldsArePoppedLowestByteFirst :
    (loaded scenario).image = some scenario ∧ validImage scenario ∧ 3 < 4 := ⟨image_scenario, valid_scenario, by decide +kernel⟩

/-- Each value of STATUS, and the ends of both reserved ranges. -/
theorem witness_RdregReadsRegisterMap :
    State.reset.status = .idle ∧ ({ State.reset with status := .signed } : State).status = .signed ∧
    ({ State.reset with status := .tooSmall } : State).status = .tooSmall ∧
    ({ State.reset with status := .badMagic } : State).status = .badMagic ∧
    (0x08 ≤ (0x08 : Byte).toNat ∧ (0x0F : Byte).toNat ≤ 0x0F) ∧ 0x15 ≤ (0x15 : Byte).toNat ∧
    0x15 ≤ (0xFF : Byte).toNat := by decide +kernel

theorem witness_RegistersTellSignOutcome :
    ((loaded least).image = some least ∧ validImage least) ∧
    ((loaded shortImage).image = some shortImage ∧ shortImage.length < 256) ∧
    ((loaded wrongMagic).image = some wrongMagic ∧ 256 ≤ wrongMagic.length ∧ le32 wrongMagic 0 ≠ 0xDEADBEEF) :=
  ⟨⟨image_least, valid_least⟩, ⟨image_short, by decide +kernel⟩, image_wrongMagic, by decide +kernel, by decide +kernel⟩

theorem witness_ResetLeavesResetValues :
    ({ signedScenario with input := [.reset] } : State).input = [.reset] ∧
    ({ signedScenario with input := [.command 0xF000] } : State).input = [.command 0xF000] := ⟨rfl, rfl⟩

theorem witness_FirstCommandAfterReset : (0x07 : Byte).toNat < 0x08 := by decide +kernel

theorem witness_IllegalWordsExactly :
    ({ State.reset with input := [.command 0x3080] } : State).input = [.command 0x3080] ∧
    decode 0x3080 = .error .operandNotZero := ⟨rfl, by decide +kernel⟩

theorem witness_StepRunsDecodedCommand :
    ({ State.reset with input := [.command 0x1000] } : State).input = [.command 0x1000] ∧ decode 0x1000 = .ok .crcInit ∧
    exec .crcInit State.reset = .next (after (exec .crcInit State.reset)) ∧ State.reset.input = [] :=
  ⟨rfl, by decide +kernel, rfl, rfl⟩

/-- Each code is answered somewhere: ILLEGAL_CMD, BAD_REG, SEQ_ERROR, NO_OUTPUT, END_OF_IMAGE, IMAGE_TOO_SMALL,
INVALID_MAGIC, OK; IMG_FULL is `test_imgPush_full`. -/
theorem witness_ResponseCodesTable :
    let code s w := (after (step { s with input := [.command w] })).resp.map Response.code
    code State.reset 0x0000 = some .illegalCmd ∧ code State.reset 0x4008 = some .badReg ∧
    code signedScenario 0x21FF = some .seqError ∧ code State.reset 0x2200 = some .noOutput ∧
    code { signedScenario with rptr := 260 } 0x2200 = some .endOfImage ∧
    code (loaded shortImage) 0x3000 = some .imageTooSmall ∧ code (loaded wrongMagic) 0x3000 = some .invalidMagic ∧
    code State.reset 0x1000 = some .ok ∧
    completes (step { loaded wrongMagic with input := [.command 0x3000] }) = true := by decide +kernel

theorem witness_SignErrorsAreClosed :
    completes (exec .sign (loaded least)) = true ∧ completes (exec .crcRead State.reset) = true := by decide +kernel

theorem witness_RefusalsChangeNothing :
    let s := { State.reset with input := [.command 0x2200] }
    completes (step s) = true ∧ (after (step s)).resp = some ⟨.noOutput, 0⟩ := by decide +kernel

theorem witness_ReadsSideEffects :
    completes (exec .crcRead State.reset) = true ∧ completes (exec (.rdreg 0x10) State.reset) = true ∧
    completes (exec .imgPop signedScenario) = true ∧
    (after (exec .imgPop signedScenario)).resp = some ⟨.ok, 0xEF⟩ := by decide +kernel

/-- A register of each kind does change: the frame's premises are not empty. -/
theorem witness_OnlyNamedCommandsWrite :
    exec .sign (loaded scenario) = .next signedScenario ∧ signedScenario.crc ≠ (loaded scenario).crc ∧
    signedScenario.img ≠ (loaded scenario).img ∧ signedScenario.status ≠ (loaded scenario).status ∧
    signedScenario.rChecksum ≠ (loaded scenario).rChecksum ∧
    (after (exec (.imgPush 1) State.reset)).len ≠ State.reset.len ∧
    (after (exec .imgPop signedScenario)).rptr ≠ signedScenario.rptr ∧
    (after (exec .sign (loaded wrongMagic))).errval ≠ (loaded wrongMagic).errval :=
  ⟨signed_scenario_next, by decide +kernel⟩

/-- The offsets next to the bytes SIGN writes, and an offset other than `LEN` for IMG.PUSH. -/
theorem witness_MemoryFrameOfCommands :
    exec .sign (loaded scenario) = .next signedScenario ∧ (7 < 8 ∨ 16 ≤ 7) ∧ (16 < 8 ∨ 16 ≤ 16) ∧
    completes (exec (.imgPush 1) State.reset) = true ∧ 1 ≠ State.reset.len.toNat :=
  ⟨signed_scenario_next, by decide +kernel, by decide +kernel, by decide +kernel, by decide +kernel⟩

theorem witness_MemoryPrimitivesLittleEndian :
    (Memory.read (loaded least).img 0 = some 0xEF ∧ Memory.read (loaded least).img (0 + 1) = some 0xBE ∧
      Memory.read (loaded least).img (0 + 2) = some 0xAD ∧ Memory.read (loaded least).img (0 + 3) = some 0xDE) ∧
    Config.imgCap - 1 < Config.imgCap ∧ (Config.imgCap - 4) + 4 ≤ Config.imgCap := by
  have := Config.imgCap_ge
  exact ⟨by decide +kernel, by omega, by omega⟩

/-- The least valid image, signed and popped to its end: `LEN` and `RPTR` both 256. -/
def signedLeast : State := { after (exec .sign (loaded least)) with rptr := 256 }

theorem signed_least_inv : BlockInv signedLeast := by
  have hcap := Config.imgCap_ge
  have hI : signedLeast.image = some least := by decide +kernel
  have hlen : least.length = 256 := by decide +kernel
  have hl : signedLeast.len.toNat = 256 := by decide +kernel
  have hs : signedLeast.status = .signed := by decide +kernel
  refine ⟨by decide +kernel, by decide +kernel, Option.isSome_iff_exists.mpr ⟨_, hI⟩, by decide +kernel,
    by rw [hl]; exact hcap, ?_⟩
  simp only [statusState, hs]
  exact ⟨least, hI, by rw [hlen], by decide +kernel, by decide +kernel, by decide +kernel,
    by decide +kernel, by decide +kernel, by decide +kernel, by decide +kernel, by decide +kernel⟩

/-- The invariant says nothing about the port. -/
theorem blockInv_setInput (s : State) (es : List HostEvent) : BlockInv (s.setInput es) ↔ BlockInv s := Iff.rfl

theorem signed_least_ends : signedLeast.status = .signed ∧ signedLeast.rptr = signedLeast.len := by decide +kernel

theorem signed_least_input : signedLeast.input = [] := by decide +kernel

theorem signed_least_step : step signedLeast = .next signedLeast := by
  simp only [step, signed_least_input, waitForCommand]

theorem witness_EveryStepKeepsInvariant :
    ∃ s t, BlockInv s ∧ s.status = .signed ∧ s.rptr = s.len ∧ step s = .next t :=
  ⟨_, _, signed_least_inv, signed_least_ends.1, signed_least_ends.2, signed_least_step⟩

theorem witness_InvariantStatesNeverStop :
    ∃ s : State, BlockInv s ∧ s.input = [.command 0x2200] ∧ s.status = .signed :=
  ⟨signedLeast.setInput [.command 0x2200], (blockInv_setInput _ _).mpr signed_least_inv, rfl, by
    rw [State.setInput_status]; exact signed_least_ends.1⟩

/-- Two memories that differ only at `LEN`. -/
theorem witness_BytesAboveLenAreUnobservable :
    let s := { State.reset with img := [(0, 0x11), (1, 0x22)], len := 1 }
    s.rptr.toNat ≤ s.len.toNat ∧ sameBelow s.len.toNat s.img [(0, 0x11), (1, 0x33)] ∧ s.img ≠ [(0, 0x11), (1, 0x33)] ∧
    completes (exec .crcRead s) = true := by
  refine ⟨by decide +kernel, ?_, by decide +kernel, by decide +kernel⟩
  intro a ha
  have : a = 0 := by
    have h : ({ State.reset with img := [(0, 0x11), (1, 0x22)], len := 1 } : State).len.toNat = 1 := rfl
    omega
  subst this
  rfl

end Sys2Proof.Tests
end

