-- ==== Sys2Proof/Proofs/Scope.lean ====
section
/-! SUPPORT. The statements of 00_scope.md: the memory primitives of R12, as reads after writes. -/

namespace Sys2Proof.Machine

theorem toNat_append_byte {n : Nat} (x : BitVec n) (b : Byte) : (x ++ b).toNat = 2 ^ 8 * x.toNat + b.toNat := by
  rw [BitVec.toNat_append, Nat.shiftLeft_eq, Nat.mul_comm, Nat.two_pow_add_eq_or_of_lt b.isLt]

theorem ofBytes_toNat (b0 b1 b2 b3 : Byte) :
    (ofBytes b0 b1 b2 b3).toNat = b0.toNat + 2 ^ 8 * b1.toNat + 2 ^ 16 * b2.toNat + 2 ^ 24 * b3.toNat := by
  simp only [ofBytes, toNat_append_byte]
  omega

theorem memRead4_of_reads {s : State} {a : Nat} {b0 b1 b2 b3 : Byte} (h0 : s.memRead1 a = .ok b0)
    (h1 : s.memRead1 (a + 1) = .ok b1) (h2 : s.memRead1 (a + 2) = .ok b2) (h3 : s.memRead1 (a + 3) = .ok b3) :
    s.memRead4 a = .ok (ofBytes b0 b1 b2 b3) := by
  simp only [State.memRead4, h0, h1, h2, h3, bind_next]
  rfl

theorem memRead1_put4 (s : State) (a : Nat) (v : Word) {k : Nat} (hk : k < 4) :
    (s.setImg (Memory.put4 s.img a v)).memRead1 (a + k) = .ok (byteOf v k) := by
  rw [memRead1_eq_ok, State.setImg_img, Memory.read_put4, if_pos (by omega), Nat.add_sub_cancel_left]

theorem memRead4_put4 (s : State) (a : Nat) (v : Word) :
    (s.setImg (Memory.put4 s.img a v)).memRead4 a = .ok v := by
  have hbyte := fun k (hk : k < 4) => memRead1_put4 s a v hk
  rw [memRead4_of_reads (a := a) (hbyte 0 (by omega)) (hbyte 1 (by omega)) (hbyte 2 (by omega)) (hbyte 3 (by omega)),
    ofBytes_byteOf]

theorem Memory.read_put4_other (m : Memory) {a x : Nat} (v : Word) (h : x < a ∨ a + 4 ≤ x) :
    Memory.read (Memory.put4 m a v) x = Memory.read m x := by
  rw [Memory.read_put4, if_neg (by omega)]

/-- Settles O49: a write below the capacity sets the image to `Memory.write` or `Memory.put4`, whose reads are known
byte by byte; the four bytes of a word are `ofBytes` of its `byteOf`s. -/
theorem memoryPrimitivesLittleEndian : Obligations.MemoryPrimitivesLittleEndian := by
  unfold Obligations.MemoryPrimitivesLittleEndian
  refine ⟨fun s a b0 b1 b2 b3 h0 h1 h2 h3 => ?_, fun s a b ha => ?_, fun s a v ha => ?_⟩
  · rw [← memRead1_eq_ok] at h0 h1 h2 h3
    exact ⟨h0, _, memRead4_of_reads h0 h1 h2 h3, rfl, ofBytes_toNat b0 b1 b2 b3⟩
  · exact ⟨_, memWrite1_eq b ha, rfl, memRead1_eq_ok.mpr (Memory.read_write_same ..),
      fun x hx => Memory.read_write_other _ b hx⟩
  · have hbyte := fun k (hk : k < 4) => memRead1_put4 s a v hk
    exact ⟨_, memWrite4_eq v (by omega), rfl, memRead4_put4 s a v, hbyte 0 (by omega), hbyte 1 (by omega),
      hbyte 2 (by omega), hbyte 3 (by omega), fun x hx => Memory.read_put4_other _ v hx⟩

end Sys2Proof.Machine
end

