-- ==== Sys2Proof/Proofs/State.lean ====
section
/-! SUPPORT. The statements of 10_state.md: the reset values of R42, who writes each piece of state (R20, R110), the
invariant of reachable states (R41), and that no command reads a byte at or above `LEN` (R43). -/

namespace Sys2Proof.Machine

/-! ### The refusals, as equations -/

theorem execImgPush_seqError {s : State} (b : Byte) (hst : s.status ≠ .idle) :
    execImgPush b s = .next (s.setResp (some ⟨.seqError, 0⟩)) := by
  simp [execImgPush, hst]

theorem execImgPush_full {s : State} (b : Byte) (hst : s.status = .idle) (hlen : s.len.toNat = Config.imgCap) :
    execImgPush b s = .next (s.setResp (some ⟨.imgFull, 0⟩)) := by
  simp [execImgPush, hst, hlen]

theorem execImgPop_noOutput {s : State} (hst : s.status ≠ .signed) :
    execImgPop s = .next (s.setResp (some ⟨.noOutput, 0⟩)) := by
  simp [execImgPop, hst]

theorem execImgPop_endOfImage {s : State} (hst : s.status = .signed) (hend : s.rptr = s.len) :
    execImgPop s = .next (s.setResp (some ⟨.endOfImage, 0⟩)) := by
  simp [execImgPop, hst, hend]

/-! ### The fields a successful SIGN leaves -/

@[simp] theorem State.signedWith_len (s : State) (v c : Word) : (s.signedWith v c).len = s.len := rfl
@[simp] theorem State.signedWith_status (s : State) (v c : Word) : (s.signedWith v c).status = .signed := rfl
@[simp] theorem State.signedWith_input (s : State) (v c : Word) : (s.signedWith v c).input = s.input := rfl
@[simp] theorem State.signedWith_img (s : State) (v c : Word) :
    (s.signedWith v c).img = Memory.patched s.img (s.len - 256) (c ^^^ Config.crcXorOut) := rfl

/-! ### One step -/

theorem step_of_wait {s : State} (h : s.input = []) : step s = .next s := by
  simp only [step, h, waitForCommand]

theorem step_of_reset {s : State} {rest : List HostEvent} (h : s.input = .reset :: rest) :
    step s = .next ((s.setInput rest).resetRegisters.setResp none) := by
  simp only [step, h, hardwareReset]

theorem step_of_command {s : State} {w : CmdWord} {rest : List HostEvent} {i : Instr} (h : s.input = .command w :: rest)
    (hw : decode w = .ok i) : step s = exec i (s.setInput rest) := by
  simp only [step, h, runWord, hw]

theorem step_of_illegal {s : State} {w : CmdWord} {rest : List HostEvent} {e : Illegal}
    (h : s.input = .command w :: rest) (hw : decode w = .error e) :
    step s = .next ((s.setInput rest).setResp (some ⟨.illegalCmd, 0⟩)) := by
  simp only [step, h, runWord, hw]
  rfl

/-- What a step can do, whatever the host does. -/
theorem step_next {s t : State} (h : step s = .next t) :
    t = s ∨ (∃ rest, t = (s.setInput rest).resetRegisters.setResp none) ∨
    (∃ rest, t = (s.setInput rest).setResp (some ⟨.illegalCmd, 0⟩)) ∨
    ∃ rest i, exec i (s.setInput rest) = .next t := by
  cases hin : s.input with
  | nil => rw [step_of_wait hin] at h; exact .inl (Host.Outcome.next.inj h).symm
  | cons e rest =>
    cases e with
    | reset => rw [step_of_reset hin] at h; exact .inr (.inl ⟨rest, (Host.Outcome.next.inj h).symm⟩)
    | command w =>
      cases hw : decode w with
      | error e => rw [step_of_illegal hin hw] at h; exact .inr (.inr (.inl ⟨rest, (Host.Outcome.next.inj h).symm⟩))
      | ok i => rw [step_of_command hin hw] at h; exact .inr (.inr (.inr ⟨rest, i, h⟩))

/-! ### The pointers count without wrap -/

theorem toNat_add_one_of_lt {x : Word} {n : Nat} (h : x.toNat < n) (hn : n ≤ 2 ^ 32 - 1) :
    (x + 1).toNat = x.toNat + 1 := by
  have h1 : (1 : Word).toNat = 1 := rfl
  rw [BitVec.toNat_add_of_lt (by omega), h1]

theorem len_add_one_toNat {s : State} (h : s.len.toNat < Config.imgCap) : (s.len + 1).toNat = s.len.toNat + 1 :=
  toNat_add_one_of_lt h Config.imgCap_le

/-! ### The header fields of a patched image -/

/-- `I` with the two header fields SIGN patches (42_signer.md R132, phase 4). -/
def patchedImage (I : List Byte) (size checksum : Word) : List Byte := putLe32 (putLe32 I 8 size) 12 checksum

@[simp] theorem patchedImage_length (I : List Byte) (z k : Word) : (patchedImage I z k).length = I.length := by
  simp [patchedImage]

@[simp] theorem payload_patchedImage (I : List Byte) (z k : Word) : payload (patchedImage I z k) = payload I := by
  simp [payload, patchedImage, drop_putLe32, Config.payloadOffset]

theorem le32_patchedImage_below {I : List Byte} (z k : Word) (h : 16 ≤ I.length) {a : Nat} (ha : a ≤ 4) :
    le32 (patchedImage I z k) a = le32 I a := by
  rw [patchedImage, le32_putLe32_other _ (by simp; omega) (by omega), le32_putLe32_other _ (by omega) (by omega)]

theorem le32_patchedImage_size {I : List Byte} (z k : Word) (h : 16 ≤ I.length) :
    le32 (patchedImage I z k) 8 = z := by
  rw [patchedImage, le32_putLe32_other _ (by simp; omega) (by omega), le32_putLe32_same _ (by omega)]

theorem le32_patchedImage_checksum {I : List Byte} (z k : Word) (h : 16 ≤ I.length) :
    le32 (patchedImage I z k) 12 = k := by
  rw [patchedImage, le32_putLe32_same _ (by simp; omega)]

/-- The image a successful SIGN leaves. -/
theorem image_signedWith {s : State} {I : List Byte} (hI : s.image = some I) (h16 : 16 ≤ I.length) (v c : Word) :
    (s.signedWith v c).image = some (patchedImage I (s.len - 256) (c ^^^ Config.crcXorOut)) :=
  image_patched hI h16 _ _

/-! ### The invariant (R41)

It speaks of neither port nor of `CRC`, and of `RPTR` in `ST_SIGNED` only as `RPTR <= LEN`. -/

@[simp] theorem blockInv_setResp (s : State) (r : Option Response) : BlockInv (s.setResp r) ↔ BlockInv s := Iff.rfl

@[simp] theorem blockInv_setInput (s : State) (es : List HostEvent) : BlockInv (s.setInput es) ↔ BlockInv s := Iff.rfl

@[simp] theorem blockInv_setCrc (s : State) (c : Word) : BlockInv (s.setCrc c) ↔ BlockInv s := Iff.rfl

theorem noResult_of_idle {s : State} (h : s.status = .idle) (hs : statusState s) : noResult s := by
  rwa [statusState, h] at hs

theorem statusState_of_idle {s : State} (h : s.status = .idle) (hs : noResult s) : statusState s := by
  rwa [statusState, h]

theorem signedState_of_signed {s : State} (h : s.status = .signed) (hs : statusState s) : signedState s := by
  rwa [statusState, h] at hs

theorem statusState_of_signed {s : State} (h : s.status = .signed) (hs : signedState s) : statusState s := by
  rwa [statusState, h]

/-- An empty buffer has no bytes that must have been written. -/
theorem blockInv_emptyBuffer {s : State} (hinv : BlockInv s) : BlockInv s.emptyBuffer := by
  obtain ⟨hwf, himg, -, -, -, -⟩ := hinv
  exact ⟨hwf, himg, rfl, le_rfl, Nat.zero_le _, rfl, rfl, rfl, rfl, rfl, rfl⟩

theorem blockInv_resetRegisters {s : State} (hinv : BlockInv s) : BlockInv s.resetRegisters :=
  (blockInv_setCrc ..).mpr (blockInv_emptyBuffer hinv)

/-- A pushed byte extends the loaded image. -/
theorem blockInv_execImgPush {s t : State} {b : Byte} (hinv : BlockInv s) (h : execImgPush b s = .next t) :
    BlockInv t := by
  obtain ⟨-, rfl⟩ | ⟨-, -, rfl⟩ | ⟨hst, hlt, rfl⟩ := execImgPush_next h
  · exact hinv
  · exact hinv
  · obtain ⟨hwf, himg, hsome, hptr, hcap, hstate⟩ := hinv
    have hlen := len_add_one_toNat hlt
    obtain ⟨I, hI⟩ := Option.isSome_iff_exists.mp hsome
    have hI' : Memory.bytes (Memory.write s.img s.len.toNat b) 0 (s.len + 1).toNat = some (I ++ [b]) := by
      rw [hlen]; exact Memory.bytes_write_append b hI
    have hnone : noResult s := noResult_of_idle hst hstate
    refine ⟨Memory.wf_write _ _ hwf, Memory.inImage_write _ himg hlt, Option.isSome_iff_exists.mpr ⟨_, hI'⟩, ?_, ?_,
      statusState_of_idle hst hnone⟩
    · simp only [State.setResp_rptr, State.setLen_rptr, State.setImg_rptr, State.setResp_len, State.setLen_len]
      omega
    · simp only [State.setResp_len, State.setLen_len]
      omega

/-- A delivered byte moves `RPTR` up by one, below or to `LEN`. -/
theorem blockInv_execImgPop {s t : State} (hinv : BlockInv s) (h : execImgPop s = .next t) : BlockInv t := by
  obtain ⟨-, rfl⟩ | ⟨-, -, rfl⟩ | ⟨hst, hne, v, -, rfl⟩ := execImgPop_next h
  · exact hinv
  · exact hinv
  · obtain ⟨hwf, himg, hsome, hptr, hcap, hstate⟩ := hinv
    have hlt : s.rptr.toNat < s.len.toNat := lt_of_le_of_ne hptr (by rwa [ne_eq, BitVec.toNat_inj])
    have hsigned : signedState s := signedState_of_signed hst hstate
    refine ⟨hwf, himg, hsome, ?_, hcap, statusState_of_signed hst hsigned⟩
    have := toNat_add_one_of_lt hlt (hcap.trans Config.imgCap_le)
    simp only [State.setResp_rptr, State.setRptr_rptr, State.setResp_len, State.setRptr_len]
    omega

/-- The registers a successful SIGN publishes are the fields of the image it leaves. -/
theorem signedState_signedWith {s : State} {I : List Byte} (hI : s.image = some I) (hlen : 256 ≤ I.length)
    (hm : le32 I 0 = Config.magic) :
    signedState (s.signedWith (le32 I 4) (crcFeed Config.crcInit (payload I))) := by
  have h16 : 16 ≤ I.length := by omega
  refine ⟨_, image_signedWith hI h16 _ _, by simpa using hlen, ?_, rfl, ?_, ?_, rfl, ?_, ?_, rfl⟩
  · rw [le32_patchedImage_below _ _ h16 (by omega), hm]; rfl
  · rw [le32_patchedImage_below _ _ h16 le_rfl]; rfl
  · rw [le32_patchedImage_size _ _ h16]; rfl
  · rw [le32_patchedImage_checksum _ _ h16]; rfl
  · rw [payload_patchedImage]; rfl

/-- SIGN establishes what R41 says of the state it leads to, from the loaded image alone. -/
theorem blockInv_execSign {s t : State} (hinv : BlockInv s) (h : execSign s = .next t) : BlockInv t := by
  obtain ⟨hwf, himg, hsome, -, hcap, -⟩ := hinv
  obtain ⟨I, hI⟩ := Option.isSome_iff_exists.mp hsome
  rw [execSign_image hI] at h
  split at h
  case isTrue =>
    cases h
    exact ⟨hwf, himg, hsome, Nat.zero_le _, hcap, rfl, rfl, rfl, rfl, rfl, rfl⟩
  case isFalse hlen =>
    have hlen : 256 ≤ I.length := by omega
    split at h
    case isTrue hm =>
      cases h
      exact ⟨hwf, himg, hsome, Nat.zero_le _, hcap, I, hI, hlen, rfl, hm, rfl, rfl, rfl, rfl, rfl⟩
    case isFalse hm =>
      cases h
      exact ⟨Memory.wf_patched _ _ hwf, Memory.inImage_patched _ _ himg,
        Option.isSome_iff_exists.mpr ⟨_, image_signedWith hI (by omega) _ _⟩, Nat.zero_le _, hcap,
        signedState_signedWith hI hlen (not_not.mp hm)⟩

theorem blockInv_exec {i : Instr} {s t : State} (hinv : BlockInv s) (h : exec i s = .next t) : BlockInv t := by
  obtain ⟨rfl, rfl⟩ | ⟨b, rfl, rfl⟩ | ⟨rfl, rfl⟩ | ⟨rfl, rfl⟩ | ⟨b, rfl, hb⟩ | ⟨rfl, hpop⟩ | ⟨rfl, hsign⟩ |
    ⟨n, rfl, hreg⟩ | ⟨rfl, rfl⟩ := exec_next h
  · exact hinv
  · exact hinv
  · exact hinv
  · exact (blockInv_setResp ..).mpr (blockInv_emptyBuffer hinv)
  · exact blockInv_execImgPush hinv hb
  · exact blockInv_execImgPop hinv hpop
  · exact blockInv_execSign hinv hsign
  · obtain ⟨r, -, rfl⟩ | ⟨-, rfl⟩ := execRdreg_next hreg <;> exact hinv
  · exact (blockInv_setResp ..).mpr (blockInv_resetRegisters hinv)

/-- Settles O51: waiting and an illegal word touch neither memory nor registers, the hardware reset empties the buffer,
and each command keeps the invariant (`blockInv_exec`). -/
theorem everyStepKeepsInvariant : Obligations.EveryStepKeepsInvariant := by
  intro s t hinv h
  obtain rfl | ⟨rest, rfl⟩ | ⟨rest, rfl⟩ | ⟨rest, i, hi⟩ := step_next h
  · exact hinv
  · exact (blockInv_setResp ..).mpr (blockInv_resetRegisters ((blockInv_setInput s rest).mpr hinv))
  · exact hinv
  · exact blockInv_exec ((blockInv_setInput s rest).mpr hinv) hi

/-- Settles O50: the reset state has an empty buffer and no result. -/
theorem resetMeetsInvariant : Obligations.ResetMeetsInvariant :=
  ⟨Memory.wf_nil, rfl, rfl, le_rfl, Nat.zero_le _, rfl, rfl, rfl, rfl, rfl, rfl⟩

/-! ### Bytes at or above `LEN` (R43) -/

theorem sameBelow_write {n a : Nat} {m m' : Memory} (b : Byte)
    (h : ∀ x, x < n → x ≠ a → Memory.read m x = Memory.read m' x) :
    sameBelow n (Memory.write m a b) (Memory.write m' a b) := by
  intro x hx
  rw [Memory.read_write, Memory.read_write]
  split
  · rfl
  · next hxa => exact h x hx hxa

theorem sameBelow_patched {n : Nat} {m m' : Memory} (size checksum : Word) (h : sameBelow n m m') :
    sameBelow n (Memory.patched m size checksum) (Memory.patched m' size checksum) := by
  intro x hx
  rw [Memory.read_patched, Memory.read_patched, h x hx]

theorem memRead4_of_sameBelow {s : State} {m : Memory} {n a : Nat} (h : sameBelow n s.img m) (ha : a + 4 ≤ n) :
    (s.setImg m).memRead4 a = s.memRead4 a :=
  memRead4_congr fun k _ => (h (a + k) (by omega)).symm

theorem crcScan_of_sameBelow {s : State} {m : Memory} {n a k : Nat} (c : Word) (h : sameBelow n s.img m)
    (ha : a + k ≤ n) : (s.setImg m).crcScan a k c = s.crcScan a k c :=
  crcScan_congr fun j _ => (h (a + j) (by omega)).symm

@[simp] theorem readReg_setImg (s : State) (m : Memory) (r : Reg) : (s.setImg m).readReg r = s.readReg r := by
  cases r <;> rfl

/-- `r` answers what `t` is, up to image bytes at or above `LEN`. -/
def AnswersAlike (r : Result) (t : State) : Prop :=
  ∃ t', r = .next t' ∧ t' = t.setImg t'.img ∧ sameBelow t.len.toNat t.img t'.img

theorem AnswersAlike.of_next {r : Result} {t : State} {m : Memory} (hr : r = .next (t.setImg m))
    (hm : sameBelow t.len.toNat t.img m) : AnswersAlike r t := ⟨_, hr, rfl, hm⟩

section
variable {s t : State} {m : Memory} (hm : sameBelow s.len.toNat s.img m)
include hm

/-- Both memories get the pushed byte at `LEN`, the first offset they may have differed at. -/
theorem execImgPush_answersAlike {b : Byte} (h : execImgPush b s = .next t) :
    AnswersAlike (execImgPush b (s.setImg m)) t := by
  obtain ⟨hst, rfl⟩ | ⟨hst, hfull, rfl⟩ | ⟨hst, hlt, rfl⟩ := execImgPush_next h
  · exact .of_next (execImgPush_seqError b hst) hm
  · exact .of_next (execImgPush_full b hst hfull) hm
  · refine .of_next (execImgPush_accepted b hst hlt) (sameBelow_write b fun x hx hne => hm x ?_)
    simp only [State.setResp_len, State.setLen_len, len_add_one_toNat hlt] at hx
    omega

/-- IMG.POP reads at `RPTR` only where it is below `LEN`. -/
theorem execImgPop_answersAlike (hptr : s.rptr.toNat ≤ s.len.toNat) (h : execImgPop s = .next t) :
    AnswersAlike (execImgPop (s.setImg m)) t := by
  obtain ⟨hst, rfl⟩ | ⟨hst, hend, rfl⟩ | ⟨hst, hne, v, hv, rfl⟩ := execImgPop_next h
  · exact .of_next (execImgPop_noOutput hst) hm
  · exact .of_next (execImgPop_endOfImage hst hend) hm
  · have hlt : s.rptr.toNat < s.len.toNat := lt_of_le_of_ne hptr (by rwa [ne_eq, BitVec.toNat_inj])
    exact .of_next (execImgPop_delivered hst hne ((hm _ hlt).symm.trans hv)) hm

/-- SIGN reads the header and the payload, all below `LEN`, and patches both memories alike. -/
theorem execSign_answersAlike (h : execSign s = .next t) : AnswersAlike (execSign (s.setImg m)) t := by
  obtain ⟨hlen, rfl⟩ | ⟨hlen, w, v, h0, h4, hw, rfl⟩ | ⟨hlen, v, c, h0, h4, hc, rfl⟩ := execSign_next h
  · exact .of_next (execSign_tooSmall hlen) hm
  · rw [← memRead4_of_sameBelow hm (by omega)] at h0 h4
    exact .of_next (execSign_badMagic hlen h0 h4 hw) hm
  · rw [← memRead4_of_sameBelow hm (by omega)] at h0 h4
    rw [← crcScan_of_sameBelow _ hm (by omega)] at hc
    exact .of_next (execSign_signed hlen h0 h4 hc) (sameBelow_patched _ _ hm)

theorem execRdreg_answersAlike {n : Byte} (h : execRdreg n s = .next t) :
    AnswersAlike (execRdreg n (s.setImg m)) t := by
  obtain ⟨r, hr, rfl⟩ | ⟨hr, rfl⟩ := execRdreg_next h
  · exact .of_next (by simp only [execRdreg, hr, readReg_setImg]; rfl) hm
  · exact .of_next (by simp only [execRdreg, hr]; rfl) hm

end

/-- Settles O53: the four commands that read memory or write it answer alike, and the other five do not look at it. -/
theorem bytesAboveLenAreUnobservable : Obligations.BytesAboveLenAreUnobservable := by
  intro i s t m hptr hm h
  show AnswersAlike (exec i (s.setImg m)) t
  obtain ⟨rfl, rfl⟩ | ⟨b, rfl, rfl⟩ | ⟨rfl, rfl⟩ | ⟨rfl, rfl⟩ | ⟨b, rfl, hb⟩ | ⟨rfl, hpop⟩ | ⟨rfl, hsign⟩ |
    ⟨n, rfl, hreg⟩ | ⟨rfl, rfl⟩ := exec_next h
  · exact .of_next rfl hm
  · exact .of_next rfl hm
  · exact .of_next rfl hm
  · exact .of_next rfl fun a ha => absurd ha (Nat.not_lt_zero a)
  · exact execImgPush_answersAlike hm hb
  · exact execImgPop_answersAlike hm hptr hpop
  · exact execSign_answersAlike hm hsign
  · exact execRdreg_answersAlike hm hreg
  · exact .of_next rfl fun a ha => absurd ha (Nat.not_lt_zero a)

/-! ### Who writes what (R20, R110) -/

theorem execImgPush_ok_idle {s t : State} {b : Byte} {d : Word} (h : execImgPush b s = .next t)
    (hok : t.resp = some ⟨.ok, d⟩) : s.status = .idle := by
  obtain ⟨-, rfl⟩ | ⟨hst, -, -⟩ | ⟨hst, -, -⟩ := execImgPush_next h
  · simp at hok
  · exact hst
  · exact hst

theorem execImgPop_ok_signed {s t : State} {d : Word} (h : execImgPop s = .next t)
    (hok : t.resp = some ⟨.ok, d⟩) : s.status = .signed := by
  obtain ⟨-, rfl⟩ | ⟨hst, -, -⟩ | ⟨hst, -, -⟩ := execImgPop_next h
  · simp at hok
  · exact hst
  · exact hst

/-- The three rows of R110's table for SIGN. -/
theorem execSign_status {s t : State} (h : execSign s = .next t) :
    (s.len.toNat < 256 ∧ t.status = .tooSmall) ∨
    (256 ≤ s.len.toNat ∧ ∃ m, s.memRead4 0 = .ok m ∧ m ≠ Config.magic ∧ t.status = .badMagic) ∨
    (256 ≤ s.len.toNat ∧ s.memRead4 0 = .ok Config.magic ∧ t.status = .signed) := by
  obtain ⟨hlen, rfl⟩ | ⟨hlen, m, v, h0, -, hm, rfl⟩ | ⟨hlen, v, c, h0, -, -, rfl⟩ := execSign_next h
  · exact .inl ⟨hlen, rfl⟩
  · exact .inr (.inl ⟨hlen, m, h0, hm, rfl⟩)
  · exact .inr (.inr ⟨hlen, h0, rfl⟩)

/-- Settles O47: field by field on the state each outcome of each command leaves. -/
theorem onlyNamedCommandsWrite : Obligations.OnlyNamedCommandsWrite := by
  intro i s t h
  obtain ⟨rfl, rfl⟩ | ⟨b, rfl, rfl⟩ | ⟨rfl, rfl⟩ | ⟨rfl, rfl⟩ | ⟨b, rfl, hb⟩ | ⟨rfl, hpop⟩ | ⟨rfl, hsign⟩ |
    ⟨n, rfl, hreg⟩ | ⟨rfl, rfl⟩ := exec_next h
  · simp
  · simp
  · simp
  · simp
  · obtain ⟨-, rfl⟩ | ⟨-, -, rfl⟩ | ⟨-, -, rfl⟩ := execImgPush_next hb <;> simp
  · obtain ⟨-, rfl⟩ | ⟨-, -, rfl⟩ | ⟨-, -, v, -, rfl⟩ := execImgPop_next hpop <;> simp
  · obtain ⟨-, rfl⟩ | ⟨-, m, v, -, -, -, rfl⟩ | ⟨-, v, c, -, -, -, rfl⟩ := execSign_next hsign <;> simp
  · obtain ⟨r, -, rfl⟩ | ⟨-, rfl⟩ := execRdreg_next hreg <;> simp
  · simp

/-- `ST` changes under the three commands that write it only. -/
theorem exec_status_eq {i : Instr} {s t : State} (h : exec i s = .next t) (hclear : i ≠ .imgClear)
    (hreset : i ≠ .sysReset) (hsign : i ≠ .sign) : t.status = s.status := by
  obtain ⟨-, -, -, -, hstatus, -⟩ := onlyNamedCommandsWrite i s t h
  by_contra hne
  obtain hi | hi | hi := hstatus hne
  · exact hsign hi
  · exact hclear hi
  · exact hreset hi

/-- Settles O11: SIGN's rows are `execSign_status`, the rows that keep `ST` are `exec_status_eq`. -/
theorem statusTransitions : Obligations.StatusTransitions := by
  refine ⟨fun i s t h => ⟨?_, ?_, ?_, ?_, ?_, exec_status_eq h, ?_, ?_⟩, fun s rest hin => ⟨_, step_of_reset hin, rfl⟩⟩
  · rintro rfl
    cases h
    rfl
  · rintro rfl
    cases h
    rfl
  · rintro rfl hlen
    obtain ⟨-, ht⟩ | ⟨hge, -⟩ | ⟨hge, -⟩ := execSign_status h
    · exact ht
    · omega
    · omega
  · rintro m rfl hge h0 hm
    obtain ⟨hlt, -⟩ | ⟨-, -, -, -, ht⟩ | ⟨-, hmagic, -⟩ := execSign_status h
    · omega
    · exact ht
    · rw [h0] at hmagic
      exact absurd (Except.ok.inj hmagic) hm
  · rintro rfl hge h0
    obtain ⟨hlt, -⟩ | ⟨-, m, hm0, hm, -⟩ | ⟨-, -, ht⟩ := execSign_status h
    · omega
    · rw [h0] at hm0
      exact absurd (Except.ok.inj hm0).symm hm
    · exact ht
  · rintro b d rfl hok
    exact execImgPush_ok_idle h hok
  · rintro d rfl hok
    exact execImgPop_ok_signed h hok

/-! ### Reset (R42) -/

theorem decode_sysReset : decode 0xF000 = .ok .sysReset := by decide

/-- The registers of R42 stand in any state whose registers were reset, whatever its response. -/
theorem resetRegisters_values (s : State) (r : Option Response) :
    let t := s.resetRegisters.setResp r
    t.crc = 0xFFFFFFFF ∧ t.len = 0 ∧ t.rptr = 0 ∧ t.status = .idle ∧ t.errval = 0 ∧
      t.rMagic = 0 ∧ t.rVersion = 0 ∧ t.rSize = 0 ∧ t.rChecksum = 0 ∧ t.input = s.input :=
  ⟨rfl, rfl, rfl, rfl, rfl, rfl, rfl, rfl, rfl, rfl⟩

/-- Settles O33: the hardware reset and the word 0xF000 both lead to `resetRegisters`, with different responses. -/
theorem resetLeavesResetValues : Obligations.ResetLeavesResetValues := by
  refine ⟨rfl, rfl, rfl, rfl, rfl, rfl, rfl, rfl, rfl, ?_⟩
  rintro s e rest hin (rfl | rfl)
  · exact ⟨_, step_of_reset hin, resetRegisters_values (s.setInput rest) none⟩
  · exact ⟨_, step_of_command hin decode_sysReset, resetRegisters_values (s.setInput rest) (some ⟨.ok, 0⟩)⟩

end Sys2Proof.Machine
end

