-- ==== Sys2Proof/Proofs/Memory.lean ====
section
/-! SUPPORT. The statements of 20_memory.md: a state that meets the invariant answers every command (R57), reads and
their side effects (R62), what SIGN may write (R63), and the byte order of the fields it writes (R55). -/

namespace Sys2Proof.Machine

/-! ### Every command of a state that meets the invariant is answered (R57) -/

/-- `r` is a next state in which a response stands and the host's commands are `es`. -/
def Answers (r : Result) (es : List HostEvent) : Prop :=
  ∃ t c, r = .next t ∧ t.resp = some c ∧ t.input = es

/-- A push is refused, or writes at an offset that exists. -/
theorem execImgPush_answers {s : State} (b : Byte) (hcap : s.len.toNat ≤ Config.imgCap) :
    Answers (execImgPush b s) s.input := by
  by_cases hst : s.status = .idle
  · obtain hfull | hlt := hcap.eq_or_lt
    · exact ⟨_, _, execImgPush_full b hst hfull, rfl, rfl⟩
    · exact ⟨_, _, execImgPush_accepted b hst hlt, rfl, rfl⟩
  · exact ⟨_, _, execImgPush_seqError b hst, rfl, rfl⟩

/-- A pop is refused, or reads below `LEN`, where every byte has been written. -/
theorem execImgPop_answers {s : State} {I : List Byte} (hI : s.image = some I) (hptr : s.rptr.toNat ≤ s.len.toNat) :
    Answers (execImgPop s) s.input := by
  by_cases hst : s.status = .signed
  · by_cases hend : s.rptr = s.len
    · exact ⟨_, _, execImgPop_endOfImage hst hend, rfl, rfl⟩
    · have hlt : s.rptr.toNat < s.len.toNat := lt_of_le_of_ne hptr (by rwa [ne_eq, BitVec.toNat_inj])
      have hlen : I.length = s.len.toNat := (image_eq_some.mp hI).1
      exact ⟨_, _, execImgPop_delivered hst hend (image_read hI (by omega)), rfl, rfl⟩
  · exact ⟨_, _, execImgPop_noOutput hst, rfl, rfl⟩

/-- SIGN of a loaded image has one of its three outcomes. -/
theorem execSign_answers {s : State} {I : List Byte} (hI : s.image = some I) : Answers (execSign s) s.input := by
  rw [execSign_image hI]
  split_ifs
  · exact ⟨_, _, rfl, rfl, rfl⟩
  · exact ⟨_, _, rfl, rfl, rfl⟩
  · exact ⟨_, _, rfl, rfl, rfl⟩

theorem execRdreg_register {n : Byte} {r : Reg} (s : State) (hn : regOfNumber n = some r) :
    execRdreg n s = .next (s.setResp (some ⟨.ok, s.readReg r⟩)) := by
  rw [execRdreg, hn]
  rfl

theorem execRdreg_reserved {n : Byte} (s : State) (hn : regOfNumber n = none) :
    execRdreg n s = .next (s.setResp (some ⟨.badReg, 0⟩)) := by
  rw [execRdreg, hn]
  rfl

theorem execRdreg_answers (n : Byte) (s : State) : Answers (execRdreg n s) s.input := by
  cases hn : regOfNumber n with
  | some r => exact ⟨_, _, execRdreg_register s hn, rfl, rfl⟩
  | none => exact ⟨_, _, execRdreg_reserved s hn, rfl, rfl⟩

theorem exec_answers (i : Instr) {s : State} (hinv : BlockInv s) : Answers (exec i s) s.input := by
  obtain ⟨-, -, hsome, hptr, hcap, -⟩ := hinv
  obtain ⟨I, hI⟩ := Option.isSome_iff_exists.mp hsome
  cases i with
  | crcInit => exact ⟨_, _, rfl, rfl, rfl⟩
  | crcByte b => exact ⟨_, _, rfl, rfl, rfl⟩
  | crcRead => exact ⟨_, _, rfl, rfl, rfl⟩
  | imgClear => exact ⟨_, _, rfl, rfl, rfl⟩
  | imgPush b => exact execImgPush_answers b hcap
  | imgPop => exact execImgPop_answers hI hptr
  | sign => exact execSign_answers hI
  | rdreg n => exact execRdreg_answers n s
  | sysReset => exact ⟨_, _, rfl, rfl, rfl⟩

theorem step_answers {s : State} {w : CmdWord} {rest : List HostEvent} (hinv : BlockInv s)
    (hin : s.input = .command w :: rest) : Answers (step s) rest := by
  cases hw : decode w with
  | ok i =>
    rw [step_of_command hin hw]
    exact exec_answers i ((blockInv_setInput s rest).mpr hinv)
  | error e => exact ⟨_, _, step_of_illegal hin hw, rfl, rfl⟩

theorem safeStep_of_blockInv {s : State} (hinv : BlockInv s) : safeStep s := by
  cases hin : s.input with
  | nil => exact ⟨_, step_of_wait hin⟩
  | cons e rest =>
    cases e with
    | reset => exact ⟨_, step_of_reset hin⟩
    | command w =>
      obtain ⟨t, -, ht, -, -⟩ := step_answers hinv hin
      exact ⟨t, ht⟩

theorem stepN_of_blockInv {s : State} (n : Nat) (hinv : BlockInv s) : ∃ t, stepN n s = .next t ∧ BlockInv t := by
  induction n generalizing s with
  | zero => exact ⟨s, rfl, hinv⟩
  | succ n ih =>
    obtain ⟨u, hu⟩ := safeStep_of_blockInv hinv
    rw [stepN_succ hu]
    exact ih (everyStepKeepsInvariant s u hinv hu)

/-- Settles O52: a step from the invariant goes on and keeps it, so any number of steps does; a command word is answered
by its command or as illegal. -/
theorem invariantStatesNeverStop : Obligations.InvariantStatesNeverStop := by
  refine ⟨fun s n hinv => stepN_of_blockInv n hinv, fun s w rest hinv hin => ?_⟩
  obtain ⟨t, r, ht, hr, hrest⟩ := step_answers hinv hin
  exact ⟨t, r, ht, hr, hrest⟩

/-! ### Reads and their side effects (R62) -/

@[simp] theorem readReg_setResp (s : State) (c : Option Response) (r : Reg) : (s.setResp c).readReg r = s.readReg r := by
  cases r <;> rfl

/-- No command looks at the response port, so RDREG answers the same after any response. -/
theorem execRdreg_setResp (n : Byte) (s : State) (c : Option Response) :
    execRdreg n (s.setResp c) = execRdreg n s := by
  cases hn : regOfNumber n with
  | some r => rw [execRdreg_register _ hn, execRdreg_register _ hn, readReg_setResp]; rfl
  | none => rw [execRdreg_reserved _ hn, execRdreg_reserved _ hn]; rfl

/-- Settles O46: CRC.READ and RDREG only set the response, which neither of them reads; IMG.POP answers OK in its
delivered case only. -/
theorem readsSideEffects : Obligations.ReadsSideEffects := by
  refine ⟨?_, fun s t d h hok => ?_⟩
  · rintro i s t (rfl | ⟨n, rfl⟩) h
    · cases h
      exact ⟨rfl, rfl⟩
    · have hread : ∃ c, t = s.setResp c := by
        obtain ⟨r, -, ht⟩ | ⟨-, ht⟩ := execRdreg_next h
        · exact ⟨_, ht⟩
        · exact ⟨_, ht⟩
      obtain ⟨c, rfl⟩ := hread
      exact ⟨rfl, (execRdreg_setResp n s c).trans h⟩
  · obtain ⟨-, rfl⟩ | ⟨-, -, rfl⟩ | ⟨-, -, v, -, rfl⟩ := execImgPop_next h
    · simp at hok
    · simp at hok
    · rfl

/-! ### What SIGN writes, and what it reads (R63, R142) -/

theorem Memory.read_patched_other (m : Memory) {x : Nat} (size checksum : Word) (h : x < 8 ∨ 16 ≤ x) :
    Memory.read (Memory.patched m size checksum) x = Memory.read m x := by
  rw [Memory.read_patched, if_neg (by omega), if_neg (by omega)]

theorem patchedImage_getElem?_other {I : List Byte} (size checksum : Word) (h16 : 16 ≤ I.length) {k : Nat}
    (h : k < 8 ∨ 16 ≤ k) : (patchedImage I size checksum)[k]? = I[k]? := by
  rw [patchedImage, putLe32_getElem? _ (by simp; omega), if_neg (by omega), putLe32_getElem? _ (by omega),
    if_neg (by omega)]

theorem execSign_read_other {s t : State} {a : Nat} (h : execSign s = .next t) (ha : a < 8 ∨ 16 ≤ a) :
    Memory.read t.img a = Memory.read s.img a := by
  obtain ⟨-, rfl⟩ | ⟨-, m, v, -, -, -, rfl⟩ | ⟨-, v, c, -, -, -, rfl⟩ := execSign_next h
  · rfl
  · rfl
  · exact Memory.read_patched_other _ _ _ ha

/-- What the function `sign` can give (42_signer.md R131). -/
theorem signImage_eq_ok {I O : List Byte} (h : signImage I = .ok O) :
    256 ≤ I.length ∧ le32 I 0 = Config.magic ∧
      O = patchedImage I (BitVec.ofNat 32 (I.length - 256)) (crc32 (payload I)) := by
  unfold signImage at h
  split_ifs at h with hlen hm
  exact ⟨not_lt.mp hlen, not_not.mp hm, (Except.ok.inj h).symm⟩

theorem getD_eq_of_take_eq {I J : List Byte} {n k : Nat} (h : J.take n = I.take n) (hk : k < n) :
    J.getD k 0 = I.getD k 0 := by
  rw [List.getD_eq_getElem?_getD, List.getD_eq_getElem?_getD, ← List.getElem?_take_of_lt hk, h,
    List.getElem?_take_of_lt hk]

theorem le32_eq_of_take_eq {I J : List Byte} {n a : Nat} (h : J.take n = I.take n) (ha : a + 4 ≤ n) :
    le32 J a = le32 I a := by
  have hb := fun k (hk : k < n) => getD_eq_of_take_eq h hk
  simp only [le32, hb a (by omega), hb (a + 1) (by omega), hb (a + 2) (by omega), hb (a + 3) (by omega)]

/-- Images that agree below an offset are loaded in memories that agree below it. -/
theorem sameBelow_of_images {s s' : State} {I J : List Byte} {n : Nat} (hI : s.image = some I)
    (hJ : s'.image = some J) (hn : n ≤ I.length) (hlen : J.length = I.length) (h : J.take n = I.take n) :
    sameBelow n s'.img s.img := fun a ha => by
  rw [image_read hI (by omega), image_read hJ (by omega), getD_eq_of_take_eq h ha]

theorem len_eq_of_images {s s' : State} {I J : List Byte} (hI : s.image = some I) (hJ : s'.image = some J)
    (hlen : J.length = I.length) : s'.len = s.len := by
  rw [← BitVec.toNat_inj, ← (image_eq_some.mp hI).1, ← (image_eq_some.mp hJ).1, hlen]

/-- Settles O24: SIGN writes memory by `Memory.patched` only, and its outcome is a function of the length, the magic, the
version and the payload (`execSign_image`). -/
theorem signPassesOtherBytesThrough : Obligations.SignPassesOtherBytesThrough := by
  refine ⟨fun s t a h ha => execSign_read_other h ha, fun I O h => ?_, fun s s' I J hI hJ hge hlen htake hdrop => ?_⟩
  · obtain ⟨hge, -, rfl⟩ := signImage_eq_ok h
    exact ⟨patchedImage_length .., fun k hk => patchedImage_getElem?_other _ _ (by omega) hk⟩
  · have hlow : sameBelow 16 s'.img s.img := sameBelow_of_images hI hJ (by omega) hlen htake
    have hs := execSign_image hI
    have hs' := execSign_image hJ
    have hpay : payload J = payload I := hdrop
    rw [if_neg (by omega)] at hs hs'
    rw [le32_eq_of_take_eq (a := 0) htake (by omega), le32_eq_of_take_eq (a := 4) htake (by omega), hpay] at hs'
    split at hs
    case isTrue hm =>
      rw [if_pos hm] at hs'
      exact ⟨_, _, hs, hs', rfl, rfl, rfl, rfl, rfl, rfl, rfl, nofun, hlow⟩
    case isFalse hm =>
      rw [if_neg hm, State.signedWith, len_eq_of_images hI hJ hlen] at hs'
      exact ⟨_, _, hs, hs', rfl, rfl, rfl, rfl, rfl, rfl, rfl, fun _ => rfl, sameBelow_patched _ _ hlow⟩

/-! ### The order of the bytes of a field (R54, R55) -/

/-- Byte `k` of a word, by shift and mask. -/
theorem byteOf_setWidth (v : Word) (k : Nat) : (byteOf v k).setWidth 32 = (v >>> (8 * k)) &&& 0xFF := by
  apply BitVec.eq_of_toNat_eq
  have hmask : (0xFF : Word).toNat = 2 ^ 8 - 1 := rfl
  rw [BitVec.toNat_and, hmask, Nat.and_two_pow_sub_one_eq_mod, BitVec.toNat_setWidth_of_le (by omega), byteOf,
    BitVec.extractLsb'_toNat, BitVec.toNat_ushiftRight]

/-- A pop at an offset below `LEN` answers the byte there. -/
theorem execImgPop_at {t : State} {a : Nat} {b : Byte} (hst : t.status = .signed) (ha : a < t.len.toNat)
    (hb : Memory.read t.img a = some b) :
    ∃ u, execImgPop (t.setRptr (BitVec.ofNat 32 a)) = .next u ∧ u.resp = some ⟨.ok, b.setWidth 32⟩ := by
  have hptr : (BitVec.ofNat 32 a).toNat = a := by rw [BitVec.toNat_ofNat]; omega
  have hne : BitVec.ofNat 32 a ≠ t.len := fun h => by rw [← h, hptr] at ha; omega
  exact ⟨_, execImgPop_delivered hst hne (by rwa [State.setRptr_img, State.setRptr_rptr, hptr]), rfl⟩

theorem execSign_valid {s : State} {I : List Byte} (hI : s.image = some I) (hv : validImage I) :
    execSign s = .next (s.signedWith (le32 I 4) (crcFeed Config.crcInit (payload I))) := by
  obtain ⟨hlen, (hm : le32 I 0 = Config.magic)⟩ := hv
  rw [execSign_image hI, if_neg (by omega), if_neg (not_not.mpr hm)]

/-- Settles O29: the two fields are `put4` of `R_SIZE` and of `R_CHECKSUM`, whose bytes are `byteOf`s. -/
theorem fieldsArePoppedLowestByteFirst : Obligations.FieldsArePoppedLowestByteFirst := by
  intro s I k hI hv hk
  have hlen : 256 ≤ s.len.toNat := (image_eq_some.mp hI).1 ▸ hv.1
  refine ⟨_, execSign_valid hI hv, ?_, ?_⟩
  · rw [← byteOf_setWidth]
    refine execImgPop_at rfl (by rw [State.signedWith_len]; omega) ?_
    rw [State.signedWith_img, Memory.read_patched, if_neg (by omega), if_pos (by omega), Nat.add_sub_cancel_left]
    rfl
  · rw [← byteOf_setWidth]
    refine execImgPop_at rfl (by rw [State.signedWith_len]; omega) ?_
    rw [State.signedWith_img, Memory.read_patched, if_pos (by omega), Nat.add_sub_cancel_left]
    rfl

end Sys2Proof.Machine
end

