-- ==== Sys2Proof/Proofs/Encoding.lean ====
section
/-! SUPPORT. The statements of 30_encoding.md: the decoder against the encoder, the printed table and the list of
illegal words (R73 to R75), the response word (R71), one step (R78) and the assembler (R79, R80). -/

namespace Sys2Proof.Machine

/-! ### What the decoder answers (R74, R75) -/

/-- The fields of a format `N` command (R73), whose operand must be 0 (R75). -/
def FormatNFields (w : CmdWord) : Prop :=
  (((CmdWord.grp w).toNat = 0x1 ∨ (CmdWord.grp w).toNat = 0x2) ∧
      ((CmdWord.fn w).toNat = 0x0 ∨ (CmdWord.fn w).toNat = 0x2)) ∨
    (((CmdWord.grp w).toNat = 0x3 ∨ (CmdWord.grp w).toNat = 0xF) ∧ (CmdWord.fn w).toNat = 0x0)

/-- The condition of R75 on a word's fields, for each kind of illegal word. -/
def IllegalBecause (w : CmdWord) : Illegal → Prop
  | .unassignedGroup =>
    (CmdWord.grp w).toNat = 0x0 ∨ (0x5 ≤ (CmdWord.grp w).toNat ∧ (CmdWord.grp w).toNat ≤ 0xE)
  | .unassignedFunction =>
    (((CmdWord.grp w).toNat = 0x1 ∨ (CmdWord.grp w).toNat = 0x2) ∧ 0x3 ≤ (CmdWord.fn w).toNat) ∨
    (((CmdWord.grp w).toNat = 0x3 ∨ (CmdWord.grp w).toNat = 0x4 ∨ (CmdWord.grp w).toNat = 0xF) ∧
      0x1 ≤ (CmdWord.fn w).toNat)
  | .operandNotZero => FormatNFields w ∧ (CmdWord.opd w).toNat ≠ 0

/-- A right answer for `w`: the command whose word is `w`, or a reason that holds of `w`. -/
def AnswersRight (w : CmdWord) : Except Illegal Instr → Prop
  | .ok i => encode i = w
  | .error e => IllegalBecause w e

theorem cmdWord_of_fields {w : CmdWord} {g f : BitVec 4} (hg : (CmdWord.grp w).toNat = g.toNat)
    (hf : (CmdWord.fn w).toNat = f.toNat) : cmdWord g f (CmdWord.opd w) = w := by
  rw [← BitVec.eq_of_toNat_eq hg, ← BitVec.eq_of_toNat_eq hf, cmdWord_fields]

theorem formatN_answersRight {w : CmdWord} {g f : BitVec 4} {i : Instr} (hi : encode i = cmdWord g f 0x00)
    (hg : (CmdWord.grp w).toNat = g.toNat) (hf : (CmdWord.fn w).toNat = f.toNat) (hN : FormatNFields w) :
    AnswersRight w (formatN (CmdWord.opd w) i) := by
  unfold formatN
  split
  · next h0 => exact (h0 ▸ hi).trans (cmdWord_of_fields hg hf)
  · next h0 => exact ⟨hN, fun h => h0 (BitVec.eq_of_toNat_eq h)⟩

theorem unassignedFunction_of_three {w : CmdWord} (hg : (CmdWord.grp w).toNat = 0x1 ∨ (CmdWord.grp w).toNat = 0x2)
    (h0 : (CmdWord.fn w).toNat ≠ 0x0) (h1 : (CmdWord.fn w).toNat ≠ 0x1) (h2 : (CmdWord.fn w).toNat ≠ 0x2) :
    IllegalBecause w .unassignedFunction := .inl ⟨hg, by omega⟩

theorem unassignedFunction_of_one {w : CmdWord}
    (hg : (CmdWord.grp w).toNat = 0x3 ∨ (CmdWord.grp w).toNat = 0x4 ∨ (CmdWord.grp w).toNat = 0xF)
    (h0 : (CmdWord.fn w).toNat ≠ 0x0) : IllegalBecause w .unassignedFunction := .inr ⟨hg, by omega⟩

theorem unassignedGroup_of_ne {w : CmdWord} (h1 : (CmdWord.grp w).toNat ≠ 0x1) (h2 : (CmdWord.grp w).toNat ≠ 0x2)
    (h3 : (CmdWord.grp w).toNat ≠ 0x3) (h4 : (CmdWord.grp w).toNat ≠ 0x4) (hF : (CmdWord.grp w).toNat ≠ 0xF) :
    IllegalBecause w .unassignedGroup := by
  have := (CmdWord.grp w).isLt
  simp only [IllegalBecause]
  omega

/-- The one walk through the decoder's cases; that every command is also answered is `decode_encode`. -/
theorem decode_answersRight (w : CmdWord) : AnswersRight w (decode w) := by
  unfold decode
  split
  · next hg =>
    split
    · next hf => exact formatN_answersRight (i := .crcInit) rfl hg hf (.inl ⟨.inl hg, .inl hf⟩)
    · next hf => exact cmdWord_of_fields hg hf
    · next hf => exact formatN_answersRight (i := .crcRead) rfl hg hf (.inl ⟨.inl hg, .inr hf⟩)
    · next h0 h1 h2 => exact unassignedFunction_of_three (.inl hg) h0 h1 h2
  · next hg =>
    split
    · next hf => exact formatN_answersRight (i := .imgClear) rfl hg hf (.inl ⟨.inr hg, .inl hf⟩)
    · next hf => exact cmdWord_of_fields hg hf
    · next hf => exact formatN_answersRight (i := .imgPop) rfl hg hf (.inl ⟨.inr hg, .inr hf⟩)
    · next h0 h1 h2 => exact unassignedFunction_of_three (.inr hg) h0 h1 h2
  · next hg =>
    split
    · next hf => exact formatN_answersRight (i := .sign) rfl hg hf (.inr ⟨.inl hg, hf⟩)
    · next h0 => exact unassignedFunction_of_one (.inl hg) h0
  · next hg =>
    split
    · next hf => exact cmdWord_of_fields hg hf
    · next h0 => exact unassignedFunction_of_one (.inr (.inl hg)) h0
  · next hg =>
    split
    · next hf => exact formatN_answersRight (i := .sysReset) rfl hg hf (.inr ⟨.inr hg, hf⟩)
    · next h0 => exact unassignedFunction_of_one (.inr (.inr hg)) h0
  · next h1 h2 h3 h4 hF => exact unassignedGroup_of_ne h1 h2 h3 h4 hF

theorem encode_of_decode {w : CmdWord} {i : Instr} (h : decode w = .ok i) : encode i = w := by
  have hw := decode_answersRight w
  rwa [h] at hw

theorem illegalBecause_of_decode {w : CmdWord} {e : Illegal} (h : decode w = .error e) : IllegalBecause w e := by
  have hw := decode_answersRight w
  rwa [h] at hw

@[simp] theorem decode_encode (i : Instr) : decode (encode i) = .ok i := by
  cases i <;> simp [encode, decode, formatN]

theorem encode_injective : Function.Injective encode := fun i j h => by
  have hi := decode_encode i
  rw [h, decode_encode] at hi
  exact (Except.ok.inj hi).symm

/-- Settles O35: the decoder's answers are right, and it answers every command to the command's word. -/
theorem decodeAndEncodeAgree : Obligations.DecodeAndEncodeAgree := fun w i =>
  ⟨fun h => ⟨by cases i <;> rfl, encode_of_decode h⟩, fun ⟨_, h⟩ => h ▸ decode_encode i⟩

/-! ### The printed table (R73) -/

theorem selectsOwnRow (i : Instr) : (rowsSelected (encode i)).map OpRow.mnemonic = [mnemonic i] := by
  cases i with
  | crcInit => exact Laws.SelectsOwnRow.crcInit
  | crcByte b => exact Laws.SelectsOwnRow.crcByte b
  | crcRead => exact Laws.SelectsOwnRow.crcRead
  | imgClear => exact Laws.SelectsOwnRow.imgClear
  | imgPush b => exact Laws.SelectsOwnRow.imgPush b
  | imgPop => exact Laws.SelectsOwnRow.imgPop
  | sign => exact Laws.SelectsOwnRow.sign
  | rdreg n => exact Laws.SelectsOwnRow.rdreg n
  | sysReset => exact Laws.SelectsOwnRow.sysReset

theorem eq_of_mask_whole {w p : CmdWord} (h : w &&& 0xFFFF = p) : p = w := h ▸ BitVec.and_allOnes

theorem cmdWord_of_mask_operand {w : CmdWord} {g f : BitVec 4} (h : w &&& 0xFF00 = cmdWord g f 0) :
    cmdWord g f (CmdWord.opd w) = w := by
  have hg : CmdWord.grp (w &&& 0xFF00) = CmdWord.grp w := by
    simp only [CmdWord.grp, BitVec.extractLsb'_and]
    exact BitVec.and_allOnes
  have hf : CmdWord.fn (w &&& 0xFF00) = CmdWord.fn w := by
    simp only [CmdWord.fn, BitVec.extractLsb'_and]
    exact BitVec.and_allOnes
  rw [h, grp_cmdWord] at hg
  rw [h, fn_cmdWord] at hf
  rw [hg, hf, cmdWord_fields]

/-- The converse of `selectsOwnRow`: a word that selects a row is the word of a command. -/
theorem exists_encode_of_selects {w : CmdWord} {r : OpRow} (hr : r ∈ opcodeTable) (h : r.selects w = true) :
    ∃ i, encode i = w := by
  have h' : w &&& r.mask = r.pattern := by simpa [OpRow.selects] using h
  simp only [opcodeTable, List.mem_cons, List.not_mem_nil, or_false] at hr
  obtain rfl | rfl | rfl | rfl | rfl | rfl | rfl | rfl | rfl := hr
  · exact ⟨.crcInit, eq_of_mask_whole h'⟩
  · exact ⟨.crcByte (CmdWord.opd w), cmdWord_of_mask_operand h'⟩
  · exact ⟨.crcRead, eq_of_mask_whole h'⟩
  · exact ⟨.imgClear, eq_of_mask_whole h'⟩
  · exact ⟨.imgPush (CmdWord.opd w), cmdWord_of_mask_operand h'⟩
  · exact ⟨.imgPop, eq_of_mask_whole h'⟩
  · exact ⟨.sign, eq_of_mask_whole h'⟩
  · exact ⟨.rdreg (CmdWord.opd w), cmdWord_of_mask_operand h'⟩
  · exact ⟨.sysReset, eq_of_mask_whole h'⟩

/-- Settles O36: a decoded word is the word of its command, which selects its own row; a refused one is no command's
word, so it selects none. -/
theorem decoderFollowsOpcodeTable : Obligations.DecoderFollowsOpcodeTable := by
  intro w
  cases hw : decode w with
  | ok i =>
    obtain ⟨r, hr, hm⟩ := List.map_eq_singleton_iff.mp (selectsOwnRow i)
    exact .inl ⟨r, i, encode_of_decode hw ▸ hr, rfl, hm.symm⟩
  | error e =>
    refine .inr ⟨e, List.filter_eq_nil_iff.mpr fun r hr hsel => ?_, rfl⟩
    obtain ⟨i, rfl⟩ := exists_encode_of_selects hr hsel
    simp at hw

/-! ### The illegal words (R75) -/

theorem not_illegalBecause_encode (i : Instr) (e : Illegal) : ¬ IllegalBecause (encode i) e := by
  cases e with
  | unassignedGroup => cases i <;> simp [IllegalBecause, encode]
  | unassignedFunction => cases i <;> simp [IllegalBecause, encode]
  | operandNotZero => cases i <;> simp [IllegalBecause, FormatNFields, encode]

theorem exists_illegalBecause_iff (w : CmdWord) :
    (∃ e, IllegalBecause w e) ↔
      IllegalBecause w .unassignedGroup ∨ IllegalBecause w .unassignedFunction ∨ IllegalBecause w .operandNotZero := by
  constructor
  · rintro ⟨e, h⟩
    cases e with
    | unassignedGroup => exact .inl h
    | unassignedFunction => exact .inr (.inl h)
    | operandNotZero => exact .inr (.inr h)
  · rintro (h | h | h) <;> exact ⟨_, h⟩

theorem decode_error_iff (w : CmdWord) : (∃ e, decode w = .error e) ↔ ∃ e, IllegalBecause w e := by
  refine ⟨fun ⟨e, h⟩ => ⟨e, illegalBecause_of_decode h⟩, fun ⟨e, h⟩ => ?_⟩
  cases hw : decode w with
  | ok i => exact absurd (encode_of_decode hw ▸ h) (not_illegalBecause_encode i e)
  | error e' => exact ⟨e', rfl⟩

theorem decode_error_iff_no_command (w : CmdWord) : (∃ e, decode w = .error e) ↔ ¬ ∃ i, encode i = w := by
  cases hw : decode w with
  | ok i => simpa using ⟨i, encode_of_decode hw⟩
  | error e =>
    refine iff_of_true ⟨e, rfl⟩ fun ⟨i, hi⟩ => ?_
    simp [← hi] at hw

/-- Every byte, once. -/
def allBytes : List Byte := (List.finRange (2 ^ 8)).map BitVec.ofFin

theorem mem_allBytes (b : Byte) : b ∈ allBytes := List.mem_map.mpr ⟨b.toFin, List.mem_finRange _, rfl⟩

theorem nodup_allBytes : allBytes.Nodup :=
  (List.nodup_finRange _).map fun _ _ h => congrArg BitVec.toFin h

theorem length_allBytes : allBytes.length = 256 := by
  rw [allBytes, List.length_map, List.length_finRange]

/-- Every command with every operand byte, once. -/
def allInstrs : List Instr :=
  [.crcInit, .crcRead, .imgClear, .imgPop, .sign, .sysReset] ++
    (allBytes.map .crcByte ++ (allBytes.map .imgPush ++ allBytes.map .rdreg))

theorem length_allInstrs : allInstrs.length = 6 + 3 * 256 := by
  simp [allInstrs, length_allBytes]

theorem mem_allInstrs (i : Instr) : i ∈ allInstrs := by
  cases i <;> simp [allInstrs, mem_allBytes]

theorem nodup_allInstrs : allInstrs.Nodup := by
  have hcrc : (allBytes.map Instr.crcByte).Nodup := nodup_allBytes.map fun _ _ h => Instr.crcByte.inj h
  have hpush : (allBytes.map Instr.imgPush).Nodup := nodup_allBytes.map fun _ _ h => Instr.imgPush.inj h
  have hreg : (allBytes.map Instr.rdreg).Nodup := nodup_allBytes.map fun _ _ h => Instr.rdreg.inj h
  refine List.Nodup.append (by decide) (hcrc.append (hpush.append hreg ?_) ?_) ?_
  · simp [List.Disjoint]
  · simp [List.Disjoint]
  · simp [List.Disjoint]

/-- Settles O37: the three kinds of `IllegalBecause` are the rule's list, and the legal words are the words of
`allInstrs`. -/
theorem illegalWordsExactly : Obligations.IllegalWordsExactly := by
  refine ⟨fun w => ?_, ⟨allInstrs.map encode, nodup_allInstrs.map encode_injective, ?_, ?_, fun w => ?_⟩,
    fun s w rest e hin hw => step_of_illegal hin hw⟩
  · rw [decode_error_iff, exists_illegalBecause_iff]
    simp only [grp_toNat, fn_toNat, opd_toNat, IllegalBecause, FormatNFields, or_assoc]
  · rw [List.length_map, length_allInstrs]
  · rw [List.length_map, length_allInstrs]
  · rw [decode_error_iff_no_command, not_not]
    simp [mem_allInstrs]

/-! ### The assembler (R79, R80) -/

theorem isByteOperand_toNat (b : Byte) : isByteOperand b.toNat = true :=
  decide_eq_true (Nat.le_of_lt_succ b.isLt)

theorem all_isByteOperand_toNat (bs : List Byte) : (bs.map BitVec.toNat).all isByteOperand = true := by
  simp [isByteOperand_toNat]

@[simp] theorem asmByte_toNat (b : Byte) : asmByte b.toNat = b := by
  rw [asmByte, BitVec.ofNat_toNat, BitVec.setWidth_eq]

theorem assembleLine_of_wellFormed {l : AsmLine} (h : AsmLine.wellFormed l = true) :
    assembleLine l = .ok ((expandLine l).map encode) := by
  rw [assembleLine, if_pos h]

/-- The words of a byte command repeated over a list of written bytes. -/
theorem map_encode_asmByte (f : Byte → Instr) (bs : List Byte) :
    ((bs.map BitVec.toNat).map fun b => f (asmByte b)).map encode = bs.map fun b => encode (f b) := by
  simp

/-- Settles O40: a line of bytes is well formed, and its expansion is mapped to words command by command. -/
theorem pseudoInstructionsExpand : Obligations.PseudoInstructionsExpand := by
  refine ⟨fun bs => ?_, fun n b => ?_, fun n => ?_, rfl, rfl⟩
  · have hbs := all_isByteOperand_toNat bs
    have hcrc := map_encode_asmByte .crcByte bs
    have himg := map_encode_asmByte .imgPush bs
    refine ⟨?_, ?_, ?_, ?_⟩
    · rw [assembleLine_of_wellFormed (l := .crcBytes _) hbs, expandLine, hcrc]
    · rw [assembleLine_of_wellFormed (l := .crcOf _) hbs, expandLine, List.map_append, List.map_cons, hcrc]
      rfl
    · rw [assembleLine_of_wellFormed (l := .imgBytes _) hbs, expandLine, himg]
    · rw [assembleLine_of_wellFormed (l := .imgLoad _) hbs, expandLine, List.map_cons, himg]
      rfl
  · rw [assembleLine_of_wellFormed (l := .imgFill _ _) (isByteOperand_toNat b), expandLine, List.map_replicate,
      asmByte_toNat]
  · rw [assembleLine_of_wellFormed (l := .imgUnload _) rfl, expandLine, List.map_replicate]
    rfl

/-- Settles O41: each text is read and assembled. -/
theorem assemblerExamples : Obligations.AssemblerExamples :=
  ⟨by decide, by decide, by decide, by decide, by decide, by decide, by decide⟩

/-! ### Samples, steps and responses (R71, R73, R75, R78) -/

/-- Settles O38: the legal samples are words of commands, the illegal ones are computed. -/
theorem sampleWordsDecode : Obligations.SampleWordsDecode :=
  ⟨decode_encode .crcInit, decode_encode (.crcByte 0xAA), decode_encode .crcRead, decode_encode .imgClear,
    decode_encode (.imgPush 0xEF), decode_encode .imgPop, decode_encode .sign, decode_encode (.rdreg 0x14),
    decode_encode (.rdreg 0xFF), decode_encode .sysReset, by decide, by decide, by decide, by decide, by decide,
    by decide, by decide⟩

theorem exec_input {i : Instr} {s t : State} (h : exec i s = .next t) : t.input = s.input := by
  obtain ⟨-, -, -, -, -, -, -, -, -, -, hin⟩ := onlyNamedCommandsWrite i s t h
  exact hin

/-- Settles O39: the equations of a step, and the last clause of the commands' frame. -/
theorem stepRunsDecodedCommand : Obligations.StepRunsDecodedCommand :=
  ⟨fun _ _ _ _ hin hw => step_of_command hin hw, fun _ _ _ h => exec_input h, fun _ hin => step_of_wait hin⟩

/-- Settles O43: a response word is the code appended to the datum. -/
theorem responseWordLayout : Obligations.ResponseWordLayout :=
  fun _ => ⟨BitVec.extractLsb'_append_eq_left, BitVec.extractLsb'_append_eq_right⟩

end Sys2Proof.Machine
end

