-- ==== Sys2Proof/Proofs/Crc.lean ====
section
/-! SUPPORT. The statements of 40_crc.md: the three commands of the CRC-32 generator (R92, R94, R96), the table form of
the byte step (R93), and the checksum of a session in pieces (R97 to R99). -/

namespace Sys2Proof.Machine

/-! ### The byte step and its table form (R91, R93) -/

/-- A shift is linear over xor: the polynomial enters once for each operand whose low bit is set. -/
theorem crcShift_xor (x y : Word) : crcShift (x ^^^ y) = crcShift x ^^^ crcShift y := by
  simp only [crcShift, BitVec.getLsbD_xor, BitVec.ushiftRight_xor_distrib]
  cases x.getLsbD 0 <;> cases y.getLsbD 0
  case false.false => rfl
  case false.true => exact BitVec.xor_assoc ..
  case true.false =>
    change x >>> 1 ^^^ y >>> 1 ^^^ Config.crcPoly = x >>> 1 ^^^ Config.crcPoly ^^^ y >>> 1
    ac_rfl
  case true.true =>
    change x >>> 1 ^^^ y >>> 1 = x >>> 1 ^^^ Config.crcPoly ^^^ (y >>> 1 ^^^ Config.crcPoly)
    calc x >>> 1 ^^^ y >>> 1
        = x >>> 1 ^^^ y >>> 1 ^^^ (Config.crcPoly ^^^ Config.crcPoly) := by rw [BitVec.xor_self, BitVec.xor_zero]
      _ = x >>> 1 ^^^ Config.crcPoly ^^^ (y >>> 1 ^^^ Config.crcPoly) := by ac_rfl

theorem crcShifts_xor (n : Nat) (x y : Word) : crcShifts n (x ^^^ y) = crcShifts n x ^^^ crcShifts n y := by
  induction n generalizing x y with
  | zero => rfl
  | succ n ih => simp only [crcShifts, crcShift_xor, ih]

/-- While the low bits are 0 the polynomial does not enter. -/
theorem crcShifts_of_low_zero {n : Nat} {x : Word} (h : ∀ i, i < n → x.getLsbD i = false) :
    crcShifts n x = x >>> n := by
  induction n generalizing x with
  | zero => simp [crcShifts]
  | succ n ih =>
    have hshift : crcShift x = x >>> 1 := by
      simp only [crcShift, h 0 n.succ_pos, Bool.false_eq_true, if_false]
    have hlow : ∀ i, i < n → (x >>> 1).getLsbD i = false := fun i hi => by
      rw [BitVec.getLsbD_ushiftRight]
      exact h (1 + i) (by omega)
    rw [crcShifts, hshift, ih hlow, ← BitVec.shiftRight_add, Nat.add_comm]

theorem byte_shiftRight_eight (b : Byte) : (b.setWidth 32 : Word) >>> 8 = 0 := by
  apply BitVec.eq_of_toNat_eq
  rw [BitVec.toNat_ushiftRight, BitVec.toNat_setWidth_of_le (by omega), Nat.shiftRight_eq_zero _ _ b.isLt]
  rfl

theorem crcStep_zero (b : Byte) : crcStep 0 b = crcShifts 8 (b.setWidth 32) := congrArg (crcShifts 8) BitVec.zero_xor

/-- Only the low byte of the word enters the polynomial; what is above it is shifted down unchanged. -/
theorem crcStep_eq_low_byte (c : Word) (b : Byte) :
    crcStep c b = crcStep 0 ((c ^^^ b.setWidth 32).setWidth 8) ^^^ (c >>> 8) := by
  generalize hx : c ^^^ b.setWidth 32 = x
  have hlow : ∀ i, i < 8 → ((x.setWidth 8).setWidth 32 ^^^ x).getLsbD i = false := fun i hi => by
    have hi' : i < 32 := by omega
    simp [hi, hi']
  have hhigh : ((x.setWidth 8).setWidth 32 ^^^ x) >>> 8 = c >>> 8 := by
    rw [← hx, BitVec.ushiftRight_xor_distrib, BitVec.ushiftRight_xor_distrib, byte_shiftRight_eight,
      byte_shiftRight_eight]
    exact BitVec.zero_xor.trans BitVec.xor_zero
  calc crcStep c b
      = crcShifts 8 x := by rw [crcStep, hx]
    _ = crcShifts 8 ((x.setWidth 8).setWidth 32 ^^^ ((x.setWidth 8).setWidth 32 ^^^ x)) := by
        rw [← BitVec.xor_assoc, BitVec.xor_self, BitVec.zero_xor]
    _ = crcShifts 8 ((x.setWidth 8).setWidth 32) ^^^ (c >>> 8) := by
        rw [crcShifts_xor, crcShifts_of_low_zero hlow, hhigh]
    _ = crcStep 0 (x.setWidth 8) ^^^ (c >>> 8) := by rw [crcStep_zero]

theorem crcTable_getD {n : Nat} (hn : n < 256) : crcTable.getD n 0 = crcStep 0 (BitVec.ofNat 8 n) := by
  revert n
  decide +kernel

/-- The table form of `crc_step` is `crc_step` (R93). -/
theorem crcStepTable_eq_crcStep (c : Word) (b : Byte) : crcStepTable c b = crcStep c b := by
  rw [crcStepTable, crcStep_eq_low_byte, crcTable_getD (BitVec.isLt _), BitVec.ofNat_toNat, BitVec.setWidth_eq]

/-- Settles O4: every entry is the step of its index from 0, and the step only looks its low byte up. -/
theorem crcStepEqualsTableForm : Obligations.CrcStepEqualsTableForm := by
  refine ⟨by decide +kernel, fun n hn => crcTable_getD hn, fun c b => ?_, rfl, rfl, rfl, rfl⟩
  rw [← crcStepTable_eq_crcStep, crcStepTable, BitVec.toNat_setWidth]

/-! ### The three commands (R92, R94, R96) -/

theorem encode_crcByte (b : Byte) : encode (.crcByte b) = 0x1100 + b.setWidth 16 := by
  apply BitVec.eq_of_toNat_eq
  rw [encode, cmdWord, toNat_append_byte, BitVec.toNat_add, BitVec.toNat_setWidth]
  change 2 ^ 8 * 0x11 + b.toNat = (0x1100 + b.toNat % 2 ^ 16) % 2 ^ 16
  omega

theorem exec_crcRead_of_crc {s : State} {c : Word} (h : s.crc = c) :
    exec .crcRead s = .next (s.setResp (some ⟨.ok, c ^^^ Config.crcXorOut⟩)) := h ▸ rfl

/-- A successful SIGN leaves the payload's raw remainder in `CRC` (42_signer.md R138). -/
theorem crc_of_execSign {s t : State} {I : List Byte} (hI : s.image = some I) (h : execSign s = .next t)
    (hst : t.status = .signed) : t.crc = crcFeed Config.crcInit (payload I) := by
  rw [execSign_image hI] at h
  split_ifs at h
  · cases h; cases hst
  · cases h; cases hst
  · cases h; rfl

/-- Settles O1: the writes are the command's definition, and neither of them depends on what was there before. -/
theorem crcInitRestartsSession : Obligations.CrcInitRestartsSession :=
  ⟨decode_encode .crcInit, fun _ => ⟨rfl, fun _ h => Host.Outcome.next.inj h ▸ rfl⟩⟩

/-- Settles O2: the writes are the command's definition; after SIGN, `CRC` is the payload's remainder. -/
theorem crcByteFeedsOneByte : Obligations.CrcByteFeedsOneByte := by
  refine ⟨fun b => encode_crcByte b ▸ decode_encode (.crcByte b), fun _ _ => rfl, by decide, by decide, by decide,
    by decide, by decide, by decide, by decide, by decide, by decide, by decide, by decide, by decide, rfl,
    fun s t I b hI hsign hst => ?_⟩
  have hcrc : t.crc = crcFeed 0xFFFFFFFF (payload I) := crc_of_execSign hI hsign hst
  rw [crcFeed_append, ← hcrc]
  rfl

/-- Settles O3: the answer is the command's definition, and the command leaves `CRC` as it is. -/
theorem crcReadAnswersChecksum : Obligations.CrcReadAnswersChecksum := by
  have hinit : Config.crcInit ^^^ Config.crcXorOut = 0 := by decide
  have hexample : (0xAA4BFE58 : Word) ^^^ Config.crcXorOut = 0x55B401A7 := by decide
  refine ⟨decode_encode .crcRead, fun _ => rfl, fun s t h => ?_, fun s t h => ?_, hinit ▸ exec_crcRead_of_crc rfl,
    fun s hcrc => hexample ▸ exec_crcRead_of_crc hcrc⟩
  · exact Host.Outcome.next.inj h ▸ rfl
  · exact hinit ▸ exec_crcRead_of_crc (Host.Outcome.next.inj h ▸ rfl)

/-! ### Checksums (R97 to R99) -/

/-- Settles O5: 256 bytes have the empty payload, from which SIGN takes both the size and the checksum. -/
theorem emptyPayloadHasChecksumZero : Obligations.EmptyPayloadHasChecksumZero := by
  refine ⟨rfl, fun s I hI hlen hmagic => ?_⟩
  have hpayload : payload I = [] := List.drop_eq_nil_of_le hlen.le
  have hslen : s.len = 256 := BitVec.eq_of_toNat_eq ((image_eq_some.mp hI).1 ▸ hlen)
  refine ⟨_, execSign_valid hI ⟨hlen.ge, hmagic⟩, ?_, ?_, ?_, ?_⟩
  · rw [hpayload]; rfl
  · rw [hpayload]; rfl
  · change s.len - 256 = 0
    rw [hslen]; rfl
  · rw [hpayload]; rfl

/-- Settles O7: finite facts about two words and nine bytes. -/
theorem polynomialAndCheckValue : Obligations.PolynomialAndCheckValue :=
  ⟨by decide, by decide, rfl, by decide +kernel⟩

/-! ### A session in pieces (R98) -/

/-- One issued command is one step. -/
theorem stepN_issue_cons {s t : State} {i : Instr} {is : List Instr} {rest : List HostEvent} (n : Nat)
    (hin : s.input = issue (i :: is) ++ rest) (h : exec i (s.setInput (issue is ++ rest)) = .next t) :
    stepN (n + 1) s = stepN n t :=
  stepN_succ ((step_of_command hin (decode_encode i)).trans h)

/-- `CRC` is `c`, and the last response told the checksum it stands for. -/
def ToldChecksum (s : State) (c : Word) : Prop := s.crc = c ∧ s.resp = some ⟨.ok, c ^^^ Config.crcXorOut⟩

/-- The commands of one piece of a session: its bytes, then CRC.READ. -/
def pieceCommands (p : List Byte) : List Instr := p.map Instr.crcByte ++ [.crcRead]

theorem stepN_piece {s : State} {p : List Byte} {rest : List HostEvent}
    (hin : s.input = issue (pieceCommands p) ++ rest) :
    ∃ t, stepN (pieceCommands p).length s = .next t ∧ ToldChecksum t (crcFeed s.crc p) ∧ t.input = rest := by
  induction p generalizing s with
  | nil => exact ⟨_, stepN_issue_cons 0 hin rfl, ⟨rfl, rfl⟩, rfl⟩
  | cons b p ih =>
    have hstep := stepN_issue_cons (is := pieceCommands p) (pieceCommands p).length hin rfl
    obtain ⟨t, ht, htold, hrest⟩ := ih (s := ((s.setInput _).setCrc _).setResp _) rfl
    exact ⟨t, hstep.trans ht, htold, hrest⟩

theorem stepN_pieces {s : State} {c : Word} {pieces : List (List Byte)} {rest : List HostEvent}
    (htold : ToldChecksum s c) (hin : s.input = issue (pieces.flatMap pieceCommands) ++ rest) :
    ∃ t, stepN (pieces.flatMap pieceCommands).length s = .next t ∧
      ToldChecksum t (crcFeed c pieces.flatten) ∧ t.input = rest := by
  induction pieces generalizing s c with
  | nil => exact ⟨s, rfl, htold, hin⟩
  | cons p ps ih =>
    rw [List.flatMap_cons, issue, List.map_append, List.append_assoc] at hin
    obtain ⟨u, hu, hutold, hurest⟩ := stepN_piece hin
    obtain ⟨t, ht, httold, htrest⟩ := ih hutold hurest
    refine ⟨t, ?_, ?_, htrest⟩
    · rw [List.flatMap_cons, List.length_append, stepN_add hu, ht]
    · rw [List.flatten_cons, crcFeed_append, ← htold.1]
      exact httold

/-- Settles O6: CRC.INIT leaves the checksum of no bytes told, and each piece carries on from there. -/
theorem sessionChecksumIsIncremental : Obligations.SessionChecksumIsIncremental := by
  refine ⟨fun s pieces rest _ hin => ?_, fun X Y => (crcFeed_append ..).symm, [0, 1], by decide +kernel⟩
  have hinit := stepN_issue_cons (pieces.flatMap pieceCommands).length hin rfl
  obtain ⟨t, ht, ⟨hcrc, hresp⟩, hrest⟩ :=
    stepN_pieces (s := ((s.setInput _).setCrc _).setResp _) (c := Config.crcInit) ⟨rfl, rfl⟩ rfl
  refine ⟨t, ?_, hresp, hcrc, hrest⟩
  rw [crcSession, issue, List.length_map]
  exact hinit.trans ht

end Sys2Proof.Machine
end

