-- ==== Sys2Proof/Proofs/ImageBuffer.lean ====
section
/-! SUPPORT. The statements of 41_image_buffer.md: the three commands of the image buffer (R111 to R113), what a load
leaves and what an unload delivers (R114, R115), the whole chain against `sign` (R110, R133), and the frame of all
commands over image memory. -/

namespace Sys2Proof.Machine

/-! ### The three commands (R111 to R113) -/

theorem cmdWord_eq_add (g f : BitVec 4) (b : Byte) : cmdWord g f b = cmdWord g f 0 + b.setWidth 16 := by
  apply BitVec.eq_of_toNat_eq
  have hgf := (g ++ f).isLt
  have h0 : (0 : Byte).toNat = 0 := rfl
  rw [BitVec.toNat_add, BitVec.toNat_setWidth, cmdWord, cmdWord, toNat_append_byte, toNat_append_byte, h0]
  omega

theorem encode_imgPush (b : Byte) : encode (.imgPush b) = 0x2100 + b.setWidth 16 := cmdWord_eq_add 0x2 0x1 b

theorem execSign_not_idle {s t : State} (h : execSign s = .next t) : t.status ≠ .idle := by
  obtain ⟨-, ht⟩ | ⟨-, -, -, -, ht⟩ | ⟨-, -, ht⟩ := execSign_status h
  · simp [ht]
  · simp [ht]
  · simp [ht]

/-- Settles O8: the writes are the command's definition; SIGN never leads to ST_IDLE, and only it, IMG.CLEAR and
SYS.RESET change `ST`. -/
theorem imgClearEmptiesBuffer : Obligations.ImgClearEmptiesBuffer := by
  refine ⟨decode_encode .imgClear, fun _ => rfl, fun i s t h hs ht => ?_⟩
  by_contra hi
  obtain ⟨hclear, hreset⟩ := not_or.mp hi
  have hsign : i ≠ .sign := by
    rintro rfl
    exact execSign_not_idle h ht
  exact hs (exec_status_eq h hclear hreset hsign ▸ ht)

/-- Settles O9: one equation of IMG.PUSH per clause; the accepted push is one write of memory. -/
theorem imgPushAppendsOrRefuses : Obligations.ImgPushAppendsOrRefuses :=
  ⟨fun b => encode_imgPush b ▸ decode_encode (.imgPush b),
    fun b _ hst hlt => ⟨_, execImgPush_accepted b hst hlt, rfl, len_add_one_toNat hlt, Memory.read_write_same ..,
      fun _ ha => Memory.read_write_other _ b ha⟩,
    fun b _ hst => execImgPush_seqError b hst,
    fun b _ hst hfull => execImgPush_full b hst hfull⟩

/-- Settles O10: one equation of IMG.POP per clause; `RPTR` below `LEN` does not wrap. -/
theorem imgPopDeliversOrRefuses : Obligations.ImgPopDeliversOrRefuses := by
  refine ⟨decode_encode .imgPop, fun s v hst hlt hv => ⟨execImgPop_delivered hst ?_ hv, ?_⟩,
    fun s hst => execImgPop_noOutput hst, fun s hst hend => execImgPop_endOfImage hst hend⟩
  · exact fun hend => hlt.ne (congrArg BitVec.toNat hend)
  · exact toNat_add_one_of_lt hlt (Nat.le_pred_of_lt s.len.isLt)

/-! ### The frame over image memory (R63, R112) -/

theorem execImgPush_read_other {s t : State} {b : Byte} {a : Nat} (h : execImgPush b s = .next t)
    (ha : a ≠ s.len.toNat) : Memory.read t.img a = Memory.read s.img a := by
  obtain ⟨-, rfl⟩ | ⟨-, -, rfl⟩ | ⟨-, -, rfl⟩ := execImgPush_next h
  · rfl
  · rfl
  · exact Memory.read_write_other _ b ha

/-- Settles O48: only IMG.PUSH and SIGN write memory at all (`onlyNamedCommandsWrite`), each at its own offsets. -/
theorem memoryFrameOfCommands : Obligations.MemoryFrameOfCommands := by
  intro i s t a h hpush hsign
  obtain ⟨-, himg, -⟩ := onlyNamedCommandsWrite i s t h
  by_cases heq : t.img = s.img
  · rw [heq]
  · obtain ⟨b, rfl⟩ | ⟨rfl, -⟩ := himg heq
    · exact execImgPush_read_other h (hpush b rfl)
    · exact execSign_read_other h (hsign rfl)

/-! ### A load (R114) -/

/-- The image `I` is being loaded, and the last command was accepted. -/
def LoadedSoFar (s : State) (I : List Byte) : Prop :=
  s.status = .idle ∧ s.image = some I ∧ s.resp = some ⟨.ok, 0⟩

/-- An accepted push appends its byte to the image. -/
theorem exec_imgPush_loadedSoFar {s : State} {I : List Byte} (b : Byte) (hs : LoadedSoFar s I)
    (hcap : I.length < Config.imgCap) :
    ∃ t, exec (.imgPush b) s = .next t ∧ LoadedSoFar t (I ++ [b]) ∧ t.crc = s.crc ∧ t.input = s.input := by
  obtain ⟨hst, hI, -⟩ := hs
  have hlt : s.len.toNat < Config.imgCap := (image_eq_some.mp hI).1 ▸ hcap
  refine ⟨_, execImgPush_accepted b hst hlt, ⟨hst, ?_, rfl⟩, rfl, rfl⟩
  change Memory.bytes _ 0 (s.len + 1).toNat = _
  rw [len_add_one_toNat hlt]
  exact Memory.bytes_write_append b hI

theorem stepN_pushes {s : State} {I bs : List Byte} {rest : List HostEvent} (hs : LoadedSoFar s I)
    (hcap : I.length + bs.length ≤ Config.imgCap) (hin : s.input = issue (bs.map .imgPush) ++ rest) :
    ∃ t, stepN bs.length s = .next t ∧ LoadedSoFar t (I ++ bs) ∧ t.crc = s.crc ∧ t.input = rest := by
  induction bs generalizing s I with
  | nil => exact ⟨s, rfl, (List.append_nil I).symm ▸ hs, rfl, hin⟩
  | cons b bs ih =>
    rw [List.length_cons] at hcap
    obtain ⟨u, hu, huI, hucrc, huin⟩ :=
      exec_imgPush_loadedSoFar (s := s.setInput (issue (bs.map .imgPush) ++ rest)) b hs (by omega)
    obtain ⟨t, ht, htI, htcrc, htin⟩ := ih huI (by rw [List.length_append, List.length_singleton]; omega) huin
    rw [List.append_assoc] at htI
    exact ⟨t, (stepN_issue_cons bs.length hin hu).trans ht, htI, htcrc.trans hucrc, htin⟩

/-- Settles O12: IMG.CLEAR leaves the empty image, and each push appends its byte to it. -/
theorem loadedImageIsWhatWasPushed : Obligations.LoadedImageIsWhatWasPushed := by
  intro s bs rest hcap hin
  have hclear := stepN_issue_cons bs.length hin rfl
  obtain ⟨t, ht, ⟨hst, hI, hresp⟩, hcrc, hrest⟩ :=
    stepN_pushes (s := (s.setInput _).emptyBuffer.setResp _) (I := []) ⟨rfl, rfl, rfl⟩ (by simpa using hcap) rfl
  exact ⟨t, hclear.trans ht, (image_eq_some.mp hI).1.symm, hI, hst, hcrc, hresp, hrest⟩

/-! ### An unload (R115) -/

/-- `s` with `k` bytes delivered, `r` the last response, and `m` pops still to come. -/
def State.afterPops (s : State) (k : Nat) (r : Option Response) (m : Nat) : State :=
  ((s.setRptr (BitVec.ofNat 32 k)).setResp r).setInput (unload m)

theorem afterPops_succ (s : State) (k : Nat) (r r' : Option Response) (m : Nat) :
    s.afterPops (k + 1) r' m = ((s.afterPops k r m).setRptr ((s.afterPops k r m).rptr + 1)).setResp r' := by
  rw [State.afterPops, BitVec.ofNat_add]
  rfl

section
variable {s : State} {I : List Byte} (hst : s.status = .signed) (hI : s.image = some I)
include hst hI

theorem step_afterPops_delivers {k : Nat} (hk : k < I.length) (r : Option Response) (m : Nat) :
    step (s.afterPops k r (m + 1)) = .next (s.afterPops (k + 1) (some ⟨.ok, (I.getD k 0).setWidth 32⟩) m) := by
  have hlen : I.length = s.len.toNat := (image_eq_some.mp hI).1
  have hptr : (BitVec.ofNat 32 k).toNat = k := by rw [BitVec.toNat_ofNat]; omega
  have hne : BitVec.ofNat 32 k ≠ s.len := fun h => by rw [← h, hptr] at hlen; omega
  have hread : Memory.read s.img (BitVec.ofNat 32 k).toNat = some (I.getD k 0) := hptr.symm ▸ image_read hI hk
  rw [step_of_command rfl (decode_encode .imgPop), afterPops_succ s k r]
  exact execImgPop_delivered (s := s.afterPops k r m) hst hne hread

theorem step_afterPops_ends (r : Option Response) (m : Nat) :
    step (s.afterPops I.length r (m + 1)) = .next (s.afterPops I.length (some ⟨.endOfImage, 0⟩) m) := by
  have hend : BitVec.ofNat 32 I.length = s.len := by
    rw [(image_eq_some.mp hI).1, BitVec.ofNat_toNat, BitVec.setWidth_eq]
  rw [step_of_command rfl (decode_encode .imgPop)]
  exact execImgPop_endOfImage (s := s.afterPops I.length r m) hst hend

theorem stepN_afterPops {k : Nat} (hk : k ≤ I.length) (r : Option Response) (m : Nat) :
    ∃ r', stepN k (s.afterPops 0 r (k + m)) = .next (s.afterPops k r' m) := by
  induction k generalizing m with
  | zero => exact ⟨r, by rw [Nat.zero_add]; rfl⟩
  | succ k ih =>
    obtain ⟨r', hr'⟩ := ih (by omega) (m + 1)
    rw [Nat.add_assoc, Nat.add_comm 1 m, stepN_add hr', stepN_succ (step_afterPops_delivers hst hI hk r' m)]
    exact ⟨_, rfl⟩

/-- Where the step after `k` pops leads, whatever the `k`-th answered, a run of `k + 1` pops leads. -/
theorem stepN_afterPops_succ {k m : Nat} {t : State} (hk : k ≤ I.length) (r : Option Response)
    (ht : ∀ r', step (s.afterPops k r' (m + 1)) = .next t) :
    stepN (k + 1) (s.afterPops 0 r (k + (m + 1))) = .next t := by
  obtain ⟨r', hr'⟩ := stepN_afterPops hst hI hk r (m + 1)
  rw [stepN_add hr', stepN_succ (ht r')]
  rfl

end

theorem eq_afterPops_zero {s : State} {m : Nat} (hptr : s.rptr = 0) (hin : s.input = unload m) :
    s = s.afterPops 0 s.resp m := by
  have hptr' : s.rptr = BitVec.ofNat 32 0 := hptr
  rw [State.afterPops, ← hin, ← hptr']
  rfl

/-- Settles O13: `k` pops lead to `afterPops k`, where the next pop delivers byte `k`, or ends if `k` is the length. -/
theorem unloadDeliversImage : Obligations.UnloadDeliversImage := by
  intro s I hst hptr hI hin
  rw [eq_afterPops_zero hptr hin]
  refine ⟨fun k hk => ?_, _, stepN_afterPops_succ hst hI le_rfl _ (step_afterPops_ends hst hI · 0), rfl, rfl, rfl⟩
  obtain ⟨m, hm⟩ := Nat.exists_eq_add_of_lt hk
  rw [show I.length + 1 = k + (m + 1 + 1) by omega]
  exact ⟨_, stepN_afterPops_succ hst hI hk.le _ (step_afterPops_delivers hst hI hk · (m + 1)), rfl⟩

/-! ### Load, SIGN and unload (R110, R133) -/

/-- On a loaded image that `sign` accepts, SIGN leaves what `sign` gives, ready to be unloaded. -/
theorem execSign_of_signImage {s : State} {I O : List Byte} (hI : s.image = some I) (hO : signImage I = .ok O) :
    ∃ t, execSign s = .next t ∧ t.status = .signed ∧ t.rptr = 0 ∧ t.image = some O ∧
      t.resp = some ⟨.ok, crc32 (payload I)⟩ ∧ t.input = s.input := by
  obtain ⟨hge, hm, rfl⟩ := signImage_eq_ok hO
  have hlen : I.length = s.len.toNat := (image_eq_some.mp hI).1
  have hsize : s.len - 256 = BitVec.ofNat 32 (I.length - 256) := by
    rw [hlen]
    bv_omega
  exact ⟨_, execSign_valid hI ⟨hge, hm⟩, rfl, rfl, hsize ▸ image_signedWith hI (by omega) _ _, rfl, rfl⟩

/-- Settles O14: the load is O12's, SIGN refines `sign`, and the unload is O13's from the state SIGN leaves. -/
theorem loadSignUnloadDeliversContract : Obligations.LoadSignUnloadDeliversContract := by
  intro s I O hcap hO hin
  rw [List.append_assoc] at hin
  obtain ⟨t, ht, -, htI, -, -, -, htin⟩ := loadedImageIsWhatWasPushed s I _ hcap hin
  obtain ⟨u, hu, hust, huptr, huO, huresp, huin⟩ :=
    execSign_of_signImage (s := t.setInput (unload (I.length + 1))) htI hO
  have hlen : O.length = I.length := by
    obtain ⟨-, -, rfl⟩ := signImage_eq_ok hO
    exact patchedImage_length ..
  have hsigned : stepN (I.length + 1 + 1) s = .next u :=
    (stepN_add ht).trans (stepN_issue_cons (is := []) 0 htin hu)
  obtain ⟨hpops, v, hv, hvresp, -⟩ := unloadDeliversImage u O hust huptr huO (hlen.symm ▸ huin)
  rw [hlen] at hpops hv
  refine ⟨⟨u, hsigned, huresp⟩, fun k hk => ?_, v, (stepN_add hsigned).trans hv, hvresp⟩
  obtain ⟨w, hw, hwresp⟩ := hpops k hk
  exact ⟨w, (stepN_add hsigned).trans hw, hwresp⟩

end Sys2Proof.Machine
end

/-! SUPPORT. The statements of 42_signer.md: the three outcomes of SIGN and the function `sign` (R132, R133), what each
outcome depends on (R134 to R140), that SIGN is idempotent (R143), that its failures are clean (R144), and the checksum
against the CRC commands (R145, R146). -/

namespace Sys2Proof.Machine

/-! ### The three kinds of image (R131) -/

theorem image_short_or_wrongMagic_or_valid (I : List Byte) :
    I.length < 256 ∨ (256 ≤ I.length ∧ le32 I 0 ≠ Config.magic) ∨ validImage I := by
  obtain hlen | hlen := Nat.lt_or_ge I.length 256
  · exact .inl hlen
  · by_cases hm : le32 I 0 = Config.magic
    · exact .inr (.inr ⟨hlen, hm⟩)
    · exact .inr (.inl ⟨hlen, hm⟩)

theorem execSign_short {s : State} {I : List Byte} (hI : s.image = some I) (hlen : I.length < 256) :
    execSign s = .next ((s.forgetResult.setStatus .tooSmall).setResp (some ⟨.imageTooSmall, 0⟩)) :=
  execSign_tooSmall ((image_eq_some.mp hI).1 ▸ hlen)

theorem execSign_wrongMagic {s : State} {I : List Byte} (hI : s.image = some I) (hlen : 256 ≤ I.length)
    (hm : le32 I 0 ≠ Config.magic) :
    execSign s = .next (((s.forgetResult.setStatus .badMagic).setErrval (le32 I 0)).setResp
      (some ⟨.invalidMagic, le32 I 0⟩)) := by
  rw [execSign_image hI, if_neg (by omega), if_pos hm]

theorem signImage_short {I : List Byte} (hlen : I.length < 256) : signImage I = .error .imageTooSmall :=
  if_pos hlen

theorem signImage_wrongMagic {I : List Byte} (hlen : 256 ≤ I.length) (hm : le32 I 0 ≠ Config.magic) :
    signImage I = .error (.invalidMagic (le32 I 0)) := by
  rw [signImage, Config.minLen, if_neg (by omega), if_pos hm]

theorem signImage_valid {I : List Byte} (hv : validImage I) :
    signImage I = .ok (patchedImage I (BitVec.ofNat 32 (I.length - 256)) (crc32 (payload I))) := by
  obtain ⟨hlen, (hm : le32 I 0 = Config.magic)⟩ := hv
  rw [signImage, Config.minLen, if_neg (by omega), if_neg (not_not.mpr hm)]
  rfl

/-! ### Fields of the image as numbers (R54, R139) -/

/-- The size SIGN computes from `LEN` is the length of the payload; the subtraction does not borrow. -/
theorem len_sub_eq_ofNat {s : State} {I : List Byte} (hI : s.image = some I) (hlen : 256 ≤ I.length) :
    s.len - 256 = BitVec.ofNat 32 (I.length - 256) := by
  have hslen := (image_eq_some.mp hI).1
  bv_omega

theorem le32_toNat (I : List Byte) (a : Nat) :
    (le32 I a).toNat = (I.getD a 0).toNat + 2 ^ 8 * (I.getD (a + 1) 0).toNat + 2 ^ 16 * (I.getD (a + 2) 0).toNat +
      2 ^ 24 * (I.getD (a + 3) 0).toNat := ofBytes_toNat ..

/-- The magic is right when all 32 bits of bytes 0 to 3 are (R135). -/
theorem le32_eq_magic_iff (I : List Byte) :
    le32 I 0 = Config.magic ↔
      (I.getD 0 0).toNat + 2 ^ 8 * (I.getD 1 0).toNat + 2 ^ 16 * (I.getD 2 0).toNat + 2 ^ 24 * (I.getD 3 0).toNat =
        0xDEADBEEF := by
  rw [← BitVec.toNat_inj, le32_toNat]
  rfl

theorem byteOf_eq_shiftRight (v : Word) (k : Nat) : byteOf v k = (v >>> (8 * k)).setWidth 8 := rfl

theorem payload_eq_nil_iff {I : List Byte} (hlen : 256 ≤ I.length) : payload I = [] ↔ I.length = 256 := by
  rw [payload, List.drop_eq_nil_iff, Config.payloadOffset]
  omega

/-! ### The three outcomes (R132, R133) -/

/-- The source's image of 260 bytes (R132). -/
def exampleImage : List Byte :=
  [0xEF, 0xBE, 0xAD, 0xDE, 0x01, 0x00, 0x00, 0x00] ++ List.replicate 248 0x00 ++ [0xAA, 0xBB, 0xCC, 0xDD]

theorem length_exampleImage : exampleImage.length = 260 := by decide +kernel

theorem validImage_exampleImage : validImage exampleImage := ⟨by decide +kernel, by decide +kernel⟩

theorem crcFeed_exampleImage : crcFeed Config.crcInit (payload exampleImage) = 0xAA4BFE58 := by decide +kernel

/-- Settles O15: one equation of SIGN per outcome; a success patches memory by `Memory.patched`, whose bytes are
`byteOf`s, and for the example only the payload's remainder has to be computed. -/
theorem signThreeOutcomes : Obligations.SignThreeOutcomes := by
  refine ⟨decode_encode .sign, fun s hlen => execSign_tooSmall hlen,
    fun s I hI hlen hm => execSign_wrongMagic hI hlen hm,
    fun s I hI hlen hm => ⟨_, execSign_valid hI ⟨hlen, hm⟩, rfl, fun a => ?_⟩, fun s hI => ?_⟩
  · rw [State.signedWith_img, Memory.read_patched, byteOf_eq_shiftRight, byteOf_eq_shiftRight]
    split_ifs
    · omega
    · rfl
    · rfl
    · rfl
  · have hI : s.image = some exampleImage := hI
    have hsize : s.len - 256 = 4 := by rw [len_sub_eq_ofNat hI validImage_exampleImage.1, length_exampleImage]; rfl
    have hs := execSign_valid hI validImage_exampleImage
    rw [crcFeed_exampleImage] at hs
    refine ⟨_, hs, rfl, rfl, hsize, rfl, ?_⟩
    rw [image_signedWith hI (by rw [length_exampleImage]; decide), hsize]
    rfl

/-- Settles O16: SIGN and `sign` make the same two tests; an accepted image is patched alike, with
`LEN` - 256 for the length of the payload. -/
theorem signRefinesContract : Obligations.SignRefinesContract := by
  intro s I hI
  obtain hlen | ⟨hlen, hm⟩ | hv := image_short_or_wrongMagic_or_valid I
  · rw [signImage_short hlen]
    exact ⟨_, execSign_short hI hlen, rfl, rfl, rfl, rfl⟩
  · rw [signImage_wrongMagic hlen hm]
    exact ⟨_, execSign_wrongMagic hI hlen hm, rfl, rfl, rfl, rfl, rfl⟩
  · rw [signImage_valid hv, ← len_sub_eq_ofNat hI hv.1]
    exact ⟨_, execSign_valid hI hv, rfl, image_signedWith hI (Nat.le_trans (by decide) hv.1) _ _, rfl, rfl⟩

/-! ### The two tests and their order (R134 to R136) -/

/-- Settles O17: only the equation for short images answers IMAGE_TOO_SMALL, and the payload is what lies above byte
255. -/
theorem signRejectsExactlyShortImages : Obligations.SignRejectsExactlyShortImages := by
  refine ⟨fun s I hI => ?_, fun s I hI hm hlen => ?_⟩
  · obtain hlen | ⟨hlen, hm⟩ | hv := image_short_or_wrongMagic_or_valid I
    · exact ⟨_, _, _, execSign_short hI hlen, rfl, iff_of_true rfl hlen⟩
    · exact ⟨_, _, _, execSign_wrongMagic hI hlen hm, rfl, iff_of_false nofun hlen.not_gt⟩
    · exact ⟨_, _, _, execSign_valid hI hv, rfl, iff_of_false nofun hv.1.not_gt⟩
  · refine ⟨_, _, execSign_valid hI ⟨hlen, hm⟩, rfl, rfl, List.length_drop, payload_eq_nil_iff hlen,
      fun h256 => ⟨?_, ?_⟩⟩
    · rw [(payload_eq_nil_iff hlen).mpr h256]
      rfl
    · change s.len - 256 = 0
      rw [len_sub_eq_ofNat hI hlen, h256]
      rfl

/-- Settles O18: the magic is compared as the 32-bit value of bytes 0 to 3, and only a wrong one answers
INVALID_MAGIC. -/
theorem signRejectsExactlyWrongMagic : Obligations.SignRejectsExactlyWrongMagic := by
  refine ⟨fun s I hI hlen => ?_, fun s I hI hlen => ?_⟩
  · have hvalue := le32_eq_magic_iff I
    by_cases hm : le32 I 0 = Config.magic
    · exact ⟨_, _, _, execSign_valid hI ⟨hlen, hm⟩, rfl, iff_of_false nofun (not_not.mpr (hvalue.mp hm)), nofun⟩
    · exact ⟨_, _, _, execSign_wrongMagic hI hlen hm, rfl, iff_of_true rfl (mt hvalue.mpr hm),
        fun _ => ⟨rfl, rfl⟩⟩
  · have hvalue : le32 ([0xDE, 0xAD, 0xBE, 0xEF] ++ I) 0 = 0xEFBEADDE := by
      change ofBytes 0xDE 0xAD 0xBE 0xEF = 0xEFBEADDE
      decide
    have hs := execSign_wrongMagic hI (by rw [List.length_append]; exact Nat.add_le_add_left hlen 4)
      (by rw [hvalue]; decide)
    rw [hvalue] at hs
    exact ⟨_, hs, rfl⟩

/-- Settles O19: the equation of each earlier test asks nothing about the later one. -/
theorem testsRunInOrder : Obligations.TestsRunInOrder := by
  refine ⟨fun s w rest e hin hw => ⟨_, step_of_illegal hin hw, rfl⟩,
    fun s b hst _ => ⟨_, execImgPush_seqError b hst, rfl⟩, fun s hst _ => ⟨_, execImgPop_noOutput hst, rfl⟩,
    fun s m hlen _ _ => ⟨_, execSign_tooSmall hlen, rfl, rfl⟩, fun s n => ?_⟩
  cases hn : regOfNumber n with
  | some r => exact ⟨_, _, _, execRdreg_register s hn, rfl, .inl rfl⟩
  | none => exact ⟨_, _, _, execRdreg_reserved s hn, rfl, .inr rfl⟩

/-! ### What the outcome depends on (R137, R138, R140) -/

/-- The two states hold the same response, status and results, but for the version. -/
structure SameResult (t t' : State) : Prop where
  resp : t'.resp = t.resp
  status : t'.status = t.status
  errval : t'.errval = t.errval
  rptr : t'.rptr = t.rptr
  rMagic : t'.rMagic = t.rMagic
  rSize : t'.rSize = t.rSize
  rChecksum : t'.rChecksum = t.rChecksum

/-- SIGN decides and computes from the length, the magic and the payload alone. -/
theorem execSign_sameResult {s s' : State} {I J : List Byte} (hI : s.image = some I) (hJ : s'.image = some J)
    (hlen : J.length = I.length) (hmagic : le32 J 0 = le32 I 0) (hpay : payload J = payload I) :
    ∃ t t', execSign s = .next t ∧ execSign s' = .next t' ∧ SameResult t t' := by
  obtain hshort | ⟨hge, hm⟩ | hv := image_short_or_wrongMagic_or_valid I
  · exact ⟨_, _, execSign_short hI hshort, execSign_short hJ (hlen ▸ hshort), rfl, rfl, rfl, rfl, rfl, rfl, rfl⟩
  · have hs' := execSign_wrongMagic hJ (hlen ▸ hge) (hmagic ▸ hm)
    rw [hmagic] at hs'
    exact ⟨_, _, execSign_wrongMagic hI hge hm, hs', rfl, rfl, rfl, rfl, rfl, rfl, rfl⟩
  · have hs' := execSign_valid hJ ⟨hlen ▸ hv.1, hmagic ▸ hv.2⟩
    rw [hpay, State.signedWith, len_eq_of_images hI hJ hlen] at hs'
    exact ⟨_, _, execSign_valid hI hv, hs', rfl, rfl, rfl, rfl, rfl, rfl, rfl⟩

theorem rVersion_of_execSign {s t : State} {I : List Byte} (hI : s.image = some I) (h : execSign s = .next t) :
    t.rVersion = if t.status = .signed then le32 I 4 else 0 := by
  rw [execSign_image hI] at h
  split_ifs at h
  · cases h; rfl
  · cases h; rfl
  · cases h; rfl

theorem image_of_execSign {s t : State} {I : List Byte} (hI : s.image = some I) (h : execSign s = .next t) :
    t.image = some (if t.status = .signed then patchedImage I t.rSize t.rChecksum else I) := by
  rw [execSign_image hI] at h
  split_ifs at h with hlen
  · cases h; exact hI
  · cases h; exact hI
  · cases h; exact image_signedWith hI (by omega) _ _

theorem payload_putLe32_version (I : List Byte) (v : Word) : payload (putLe32 I 4 v) = payload I :=
  drop_putLe32 I v (by decide)

/-- Settles O20: another version leaves the length, the magic and the payload as they are. -/
theorem versionIsOpaque : Obligations.VersionIsOpaque := by
  intro s s' I v hI hlen hJ
  have hmagic : le32 (putLe32 I 4 v) 0 = le32 I 0 := le32_putLe32_other v (by omega) (.inl (by decide))
  obtain ⟨t, t', h, h', hsame⟩ :=
    execSign_sameResult hI hJ (putLe32_length ..) hmagic (payload_putLe32_version I v)
  refine ⟨t, t', h, h', hsame.resp, hsame.status, hsame.errval, hsame.rSize, hsame.rChecksum, fun hst => ⟨?_, ?_⟩,
    fun a _ ha => execSign_read_other h' (.inl ha)⟩
  · rw [rVersion_of_execSign hJ h', if_pos hst, le32_putLe32_same v (by omega)]
  · rw [rVersion_of_execSign hI h, if_pos (hsame.status ▸ hst)]

/-- Settles O21: `signedWith` is built from the payload's remainder, and the two failures do not write `CRC`. -/
theorem signChecksumCoversPayloadOnly : Obligations.SignChecksumCoversPayloadOnly := by
  refine ⟨fun s I hI hv => ⟨_, _, execSign_valid hI hv, rfl, rfl, rfl, rfl⟩,
    fun s s' t t' I J hI hJ hvI hvJ hdrop h h' => ?_, fun s t h hst => ?_⟩
  · have hpay : payload J = payload I := hdrop.symm
    cases h.symm.trans (execSign_valid hI hvI)
    cases h'.symm.trans (execSign_valid hJ hvJ)
    rw [hpay]
    exact ⟨rfl, rfl, rfl⟩
  · obtain ⟨hcrc, -⟩ := onlyNamedCommandsWrite .sign s t h
    by_contra hne
    simpa [hst] using hcrc hne

/-- Settles O22: the field is `R_SIZE` read back from the patched image. -/
theorem signSizeIsPayloadLength : Obligations.SignSizeIsPayloadLength := by
  intro s I hI hv
  have hlen := hv.1
  have hslen := (image_eq_some.mp hI).1
  have hsize : (s.len - 256).toNat = I.length - 256 := by bv_omega
  refine ⟨_, _, execSign_valid hI hv, hsize, image_signedWith hI (by omega) _ _, ?_⟩
  rw [← le32_toNat, le32_patchedImage_size _ _ (by omega), hsize]

theorem patchedImage_getElem? {I : List Byte} (size checksum : Word) (h16 : 16 ≤ I.length) (x : Nat) :
    (patchedImage I size checksum)[x]? =
      if 12 ≤ x ∧ x < 16 then some (byteOf checksum (x - 12))
      else if 8 ≤ x ∧ x < 12 then some (byteOf size (x - 8)) else I[x]? := by
  rw [patchedImage, putLe32_getElem? _ (by simp; omega), putLe32_getElem? _ (by omega)]

/-- The old content of bytes 8 to 15 does not show in the patched image. -/
theorem patchedImage_patchedImage {I : List Byte} (x y z k : Word) (h16 : 16 ≤ I.length) :
    patchedImage (patchedImage I x y) z k = patchedImage I z k := by
  apply List.ext_getElem?
  intro a
  rw [patchedImage_getElem? _ _ (by simpa using h16), patchedImage_getElem? _ _ h16, patchedImage_getElem? _ _ h16]
  split_ifs <;> rfl

/-- Settles O23: the image alone decides (`execSign_sameResult`), the version and the image left are functions of it
and of the registers, and bytes 8 to 15 of it are overwritten. -/
theorem signIsPure : Obligations.SignIsPure := by
  refine ⟨fun s s' I hI hI' => ?_, fun s s' I x y hI hlen hJ => ?_⟩
  · obtain ⟨t, t', h, h', hsame⟩ := execSign_sameResult hI hI' rfl rfl rfl
    refine ⟨t, t', h, h', hsame.resp, hsame.status, hsame.errval, hsame.rptr, hsame.rMagic, ?_, hsame.rSize,
      hsame.rChecksum, ?_⟩
    · rw [rVersion_of_execSign hI' h', rVersion_of_execSign hI h, hsame.status]
    · rw [image_of_execSign hI' h', image_of_execSign hI h, hsame.status, hsame.rSize, hsame.rChecksum]
  · have hJ : s'.image = some (patchedImage I x y) := hJ
    have h16 : 16 ≤ I.length := by omega
    obtain ⟨t, t', h, h', hsame⟩ := execSign_sameResult hI hJ (patchedImage_length ..)
      (le32_patchedImage_below x y h16 (by decide)) (payload_patchedImage ..)
    refine ⟨t, t', h, h', hsame.resp, hsame.status, hsame.errval, hsame.rMagic, ?_, hsame.rSize, hsame.rChecksum,
      fun hst => ?_⟩
    · rw [rVersion_of_execSign hJ h', rVersion_of_execSign hI h, hsame.status, le32_patchedImage_below x y h16 le_rfl]
    · rw [image_of_execSign hJ h', image_of_execSign hI h, hsame.status, hsame.rSize, hsame.rChecksum, if_pos hst,
        if_pos hst, patchedImage_patchedImage _ _ _ _ h16]

/-! ### SIGN twice (R143)

The second SIGN writes the bytes the first one wrote. That this gives the same memory needs no canonical form: writes to
different offsets commute on every list, and of two writes to one offset the second stands. -/

theorem Memory.write_write_same (m : Memory) (a : Nat) (b c : Byte) :
    Memory.write (Memory.write m a b) a c = Memory.write m a c := by
  induction m with
  | nil => simp [Memory.write]
  | cons e rest ih =>
    obtain ⟨x, d⟩ := e
    obtain hlt | rfl | hgt := Nat.lt_trichotomy a x
    · simp [Memory.write, hlt]
    · simp [Memory.write]
    · simp [Memory.write, hgt.not_gt, hgt.ne', ih]

theorem Memory.write_comm (m : Memory) {a a' : Nat} (b b' : Byte) (h : a ≠ a') :
    Memory.write (Memory.write m a b) a' b' = Memory.write (Memory.write m a' b') a b := by
  wlog hlt : a < a' generalizing a a' b b'
  · exact (this b' b h.symm (by omega)).symm
  induction m with
  | nil => simp [Memory.write, hlt, hlt.not_gt, hlt.ne']
  | cons e rest ih =>
    obtain ⟨x, d⟩ := e
    obtain hx | rfl | hx := Nat.lt_trichotomy x a
    · have hx' : x < a' := by omega
      simp [Memory.write, hx.not_gt, hx.ne', hx'.not_gt, hx'.ne', ih]
    · simp [Memory.write, hlt.not_gt, hlt.ne']
    · obtain hx' | rfl | hx' := Nat.lt_trichotomy x a'
      · simp [Memory.write, hx, hlt.not_gt, hlt.ne', hx'.not_gt, hx'.ne']
      · simp [Memory.write, hlt, hlt.not_gt, hlt.ne']
      · simp [Memory.write, hx, hx', hlt, hlt.not_gt, hlt.ne']

/-- A byte of a field does not outlive a write of the field. -/
theorem Memory.put4_write_inside (m : Memory) (a : Nat) (v : Word) (b : Byte) {k : Nat} (hk : k < 4) :
    Memory.put4 (Memory.write m (a + k) b) a v = Memory.put4 m a v := by
  simp only [Memory.put4]
  interval_cases k
  · rw [Nat.add_zero, Memory.write_write_same]
  · rw [Memory.write_comm m _ _ (by omega : a + 1 ≠ a), Memory.write_write_same]
  · rw [Memory.write_comm m _ _ (by omega : a + 2 ≠ a), Memory.write_comm _ _ _ (by omega : a + 2 ≠ a + 1),
      Memory.write_write_same]
  · rw [Memory.write_comm m _ _ (by omega : a + 3 ≠ a), Memory.write_comm _ _ _ (by omega : a + 3 ≠ a + 1),
      Memory.write_comm _ _ _ (by omega : a + 3 ≠ a + 2), Memory.write_write_same]

theorem Memory.put4_write_outside (m : Memory) {a x : Nat} (v : Word) (b : Byte) (h : x < a ∨ a + 4 ≤ x) :
    Memory.put4 (Memory.write m x b) a v = Memory.write (Memory.put4 m a v) x b := by
  simp only [Memory.put4]
  rw [Memory.write_comm m _ _ (by omega : x ≠ a), Memory.write_comm _ _ _ (by omega : x ≠ a + 1),
    Memory.write_comm _ _ _ (by omega : x ≠ a + 2), Memory.write_comm _ _ _ (by omega : x ≠ a + 3)]

theorem Memory.put4_put4_same (m : Memory) (a : Nat) (v w : Word) :
    Memory.put4 (Memory.put4 m a v) a w = Memory.put4 m a w := by
  have hinside := fun m b k (hk : k < 4) => Memory.put4_write_inside m a w b hk
  calc Memory.put4 (Memory.put4 m a v) a w
      = Memory.put4 (Memory.write m a (byteOf v 0)) a w := by
        rw [Memory.put4.eq_def m a v, hinside _ _ 3 (by omega), hinside _ _ 2 (by omega), hinside _ _ 1 (by omega)]
    _ = Memory.put4 m a w := hinside m _ 0 (by omega)

theorem Memory.put4_comm (m : Memory) {a a' : Nat} (v w : Word) (h : a + 4 ≤ a') :
    Memory.put4 (Memory.put4 m a' w) a v = Memory.put4 (Memory.put4 m a v) a' w := by
  rw [Memory.put4.eq_def m a' w]
  iterate 4 rw [Memory.put4_write_outside _ v _ (by omega)]
  rfl

theorem Memory.patched_patched (m : Memory) (x y z k : Word) :
    Memory.patched (Memory.patched m x y) z k = Memory.patched m z k := by
  rw [Memory.patched, Memory.patched, Memory.patched, Memory.put4_comm _ z y (by decide), Memory.put4_put4_same,
    Memory.put4_put4_same]

/-- Publishing the same result again writes every byte and register with the value it has. -/
theorem signedWith_signedWith (s : State) (v c : Word) : (s.signedWith v c).signedWith v c = s.signedWith v c := by
  conv_lhs => rw [State.signedWith, State.signedWith_img, State.signedWith_len, Memory.patched_patched]
  rfl

/-- The length, the magic, the version and the payload are what they were, so SIGN has the same outcome again. -/
theorem execSign_again {s t : State} (h : execSign s = .next t) : execSign t = .next t := by
  have hother := fun a ha => execSign_read_other (a := a) h ha
  have hread4 : ∀ a, a ≤ 4 → t.memRead4 a = s.memRead4 a := fun a ha =>
    memRead4_congr fun k hk => hother _ (by omega)
  have hscan : ∀ n c, t.crcScan 256 n c = s.crcScan 256 n c := fun n c =>
    crcScan_congr fun k _ => hother _ (by omega)
  obtain ⟨hlen, rfl⟩ | ⟨hlen, m, v, h0, h4, hm, rfl⟩ | ⟨hlen, v, c, h0, h4, hc, rfl⟩ := execSign_next h
  · exact execSign_tooSmall hlen
  · rw [← hread4 0 (by decide)] at h0
    rw [← hread4 4 (by decide)] at h4
    exact execSign_badMagic hlen h0 h4 hm
  · rw [← hread4 0 (by decide)] at h0
    rw [← hread4 4 (by decide)] at h4
    rw [← hscan] at hc
    rw [execSign_signed (s := s.signedWith v c) hlen h0 h4 hc, signedWith_signedWith]

theorem signImage_again {I O : List Byte} (h : signImage I = .ok O) : signImage O = .ok O := by
  obtain ⟨hlen, hm, rfl⟩ := signImage_eq_ok h
  have h16 : 16 ≤ I.length := by omega
  have hm' := (le32_patchedImage_below (BitVec.ofNat 32 (I.length - 256)) (crc32 (payload I)) h16 (by decide)).trans hm
  rw [signImage_valid ⟨by simpa using hlen, hm'⟩, patchedImage_length, payload_patchedImage,
    patchedImage_patchedImage _ _ _ _ h16]

/-- Settles O25: `execSign_again` on states and `signImage_again` on byte lists. -/
theorem signIsIdempotent : Obligations.SignIsIdempotent :=
  ⟨fun _ _ h => execSign_again h, fun _ _ h => signImage_again h⟩

/-! ### Failure (R144) -/

/-- Settles O26: the two failures of SIGN as whole states; IMG.POP is refused outside ST_SIGNED. -/
theorem signFailureIsClean : Obligations.SignFailureIsClean := by
  intro s t h hst
  have hpop := execImgPop_noOutput hst
  obtain ⟨-, rfl⟩ | ⟨-, m, v, -, -, -, rfl⟩ | ⟨-, v, c, -, -, -, rfl⟩ := execSign_next h
  · exact ⟨rfl, .inl ⟨rfl, rfl⟩, hpop⟩
  · exact ⟨rfl, .inr rfl, hpop⟩
  · exact absurd rfl hst

/-! ### The checksum and the results (R145, R146) -/

/-- A checksum session of one piece: CRC.INIT, its bytes, CRC.READ. -/
theorem length_crcSession_singleton (p : List Byte) : (crcSession [p]).length = p.length + 2 := by
  simp [crcSession, issue]

/-- Settles O27: the stream is a session of one piece (`sessionChecksumIsIncremental`), the payload. -/
theorem signAgreesWithCrcCommands : Obligations.SignAgreesWithCrcCommands := by
  intro s s' I rest hI hv hin
  obtain ⟨hsession, -⟩ := sessionChecksumIsIncremental
  obtain ⟨t, ht, hresp, hcrc, hrest⟩ := hsession s' [payload I] rest (List.cons_ne_nil _ _) hin
  rw [length_crcSession_singleton, payload, List.length_drop] at ht
  rw [List.flatten_singleton] at hresp hcrc
  exact ⟨_, t, execSign_valid hI hv, ht, hresp, hcrc, hrest⟩

theorem registerReads_of_readReg {s : State} {n : Byte} {r : Reg} {v : Word} (hn : regOfNumber n = some r)
    (hv : s.readReg r = v) : registerReads s n v := hv ▸ execRdreg_register s hn

/-- Settles O28: the registers are read where `signedWith` put them, and only the three commands write them
(`onlyNamedCommandsWrite`). -/
theorem resultsStayReadable : Obligations.ResultsStayReadable := by
  refine ⟨fun s I hI hv => ⟨_, execSign_valid hI hv, rfl, registerReads_of_readReg (r := .rMagic) rfl rfl,
    registerReads_of_readReg (r := .rVersion) rfl rfl,
    registerReads_of_readReg (r := .rSize) rfl (len_sub_eq_ofNat hI hv.1),
    registerReads_of_readReg (r := .rChecksum) rfl rfl⟩, fun i s t h hsign hclear hreset => ?_⟩
  obtain ⟨-, -, -, -, -, -, hmagic, hversion, hsize, hchecksum, -⟩ := onlyNamedCommandsWrite i s t h
  have hnone : ¬ (i = .sign ∨ i = .imgClear ∨ i = .sysReset) := by simp [hsign, hclear, hreset]
  exact ⟨not_not.mp (mt hmagic hnone), not_not.mp (mt hversion hnone), not_not.mp (mt hsize hnone),
    not_not.mp (mt hchecksum hnone)⟩

end Sys2Proof.Machine

/-! SUPPORT. The statements of 43_system.md: RDREG against the register map (R161), what the registers tell after SIGN
(R162), and SYS.RESET as a return to the reset state (R163). -/

namespace Sys2Proof.Machine

/-! ### RDREG (R161) -/

/-- The register map and its numbers are inverse to each other (R30). -/
theorem regOfNumber_eq_some_iff {n : Byte} {r : Reg} : regOfNumber n = some r ↔ regNumber r = n := by
  constructor
  · intro h
    unfold regOfNumber at h
    split at h <;> cases h <;> exact BitVec.eq_of_toNat_eq (Eq.symm ‹n.toNat = _›)
  · rintro rfl
    exact regOfNumber_regNumber r

theorem regNumber_not_reserved (r : Reg) :
    ¬ ((0x08 ≤ (regNumber r).toNat ∧ (regNumber r).toNat ≤ 0x0F) ∨ 0x15 ≤ (regNumber r).toNat) := by
  cases r <;> decide

theorem regOfNumber_reserved {n : Byte} (h : (0x08 ≤ n.toNat ∧ n.toNat ≤ 0x0F) ∨ 0x15 ≤ n.toNat) :
    regOfNumber n = none := by
  refine Option.eq_none_iff_forall_ne_some.mpr fun r hr => ?_
  obtain rfl := regOfNumber_eq_some_iff.mp hr
  exact regNumber_not_reserved r h

theorem registerReads_regNumber (s : State) (r : Reg) : registerReads s (regNumber r) (s.readReg r) :=
  registerReads_of_readReg (regOfNumber_regNumber r) rfl

theorem registerReads_status {s : State} {st : SignStatus} (h : s.status = st) :
    registerReads s 0x00 (SignStatus.word st) := h ▸ registerReads_regNumber s .status

theorem encode_rdreg (n : Byte) : encode (.rdreg n) = 0x4000 + n.setWidth 16 := cmdWord_eq_add 0x4 0x0 n

/-- Settles O30: each assigned number is the `regNumber` of its register, and a reserved one is the number of none. -/
theorem rdregReadsRegisterMap : Obligations.RdregReadsRegisterMap :=
  ⟨fun n => encode_rdreg n ▸ decode_encode (.rdreg n),
    fun s => ⟨registerReads_status, registerReads_status, registerReads_status, registerReads_status,
      registerReads_regNumber s .len, registerReads_regNumber s .rptr, registerReads_regNumber s .errval,
      registerReads_regNumber s .rMagic, registerReads_regNumber s .rVersion, registerReads_regNumber s .rSize,
      registerReads_regNumber s .rChecksum, registerReads_regNumber s .cMagic, registerReads_regNumber s .cHeaderSize,
      registerReads_regNumber s .cPayloadOffset, registerReads_regNumber s .cMinLen,
      registerReads_regNumber s .cImgCap⟩,
    fun s _ hn => execRdreg_reserved s (regOfNumber_reserved hn)⟩

/-! ### The outcome of SIGN in the registers (R162) -/

/-- The six registers of R162's table, in any state. -/
theorem registerReads_outcome (t : State) :
    registerReads t 0x00 (SignStatus.word t.status) ∧ registerReads t 0x03 t.errval ∧
      registerReads t 0x04 t.rMagic ∧ registerReads t 0x05 t.rVersion ∧ registerReads t 0x06 t.rSize ∧
      registerReads t 0x07 t.rChecksum :=
  ⟨registerReads_status rfl, registerReads_regNumber t .errval, registerReads_regNumber t .rMagic,
    registerReads_regNumber t .rVersion, registerReads_regNumber t .rSize, registerReads_regNumber t .rChecksum⟩

/-- Settles O31: an image meets the condition of one row of the table, and SIGN's equation for it gives the row. -/
theorem registersTellSignOutcome : Obligations.RegistersTellSignOutcome := by
  intro s I hI
  obtain hlen | ⟨hlen, hm⟩ | ⟨hlen, hm⟩ := image_short_or_wrongMagic_or_valid I
  · exact ⟨_, execSign_short hI hlen, fun hv => absurd hv.1 (Nat.not_le.mpr hlen), fun _ => registerReads_outcome _,
      fun hge _ => absurd hge (Nat.not_le.mpr hlen)⟩
  · exact ⟨_, execSign_wrongMagic hI hlen hm, fun hv => absurd hv.2 hm, fun hlt => absurd hlen (Nat.not_le.mpr hlt),
      fun _ _ => registerReads_outcome _⟩
  · exact ⟨_, execSign_valid hI ⟨hlen, hm⟩, fun _ => registerReads_outcome _,
      fun hlt => absurd hlen (Nat.not_le.mpr hlt), fun _ hne => absurd hm hne⟩

/-! ### SYS.RESET (R163) -/

/-- Resetting the registers leaves the reset state, but for the memory and the two ports. -/
theorem resetRegisters_eq_reset (s : State) :
    s.resetRegisters = { State.reset with img := s.img, resp := s.resp, input := s.input } := rfl

theorem exec_sysReset (s : State) : exec .sysReset s = .next (s.resetRegisters.setResp (some ⟨.ok, 0⟩)) := rfl

/-- CRC.INIT overwrites the response of IMG.CLEAR, so what is left is the response of SYS.RESET. -/
theorem exec_crcInit_after_imgClear (s : State) :
    exec .crcInit (s.emptyBuffer.setResp (some ⟨.ok, 0⟩)) = exec .sysReset s := rfl

/-- Settles O32: SYS.RESET is `resetRegisters` with the response of IMG.CLEAR and CRC.INIT. -/
theorem sysResetRestoresResetState : Obligations.SysResetRestoresResetState := by
  refine ⟨decode_sysReset, fun s => ?_, fun s => ?_, exec_sysReset State.reset⟩
  · rw [exec_sysReset, resetRegisters_eq_reset]
    rfl
  · exact ⟨_, _, rfl, exec_crcInit_after_imgClear s, exec_sysReset s⟩

end Sys2Proof.Machine

/-! SUPPORT. The statements of 60_exceptions.md: the table of response codes (R171), the closed set of SIGN's errors
(R174), and the six interface refusals, which change no state (R175). -/

namespace Sys2Proof.Machine

/-! ### The table of responses, as a relation (R171) -/

/-- The numbers RDREG refuses are those outside the two ranges of the register map (R30, R35). -/
theorem regOfNumber_eq_none_iff {n : Byte} :
    regOfNumber n = none ↔ ¬ (n.toNat ≤ 0x07 ∨ 0x10 ≤ n.toNat ∧ n.toNat ≤ 0x14) := by
  refine ⟨fun h => ?_, fun h => regOfNumber_reserved (by omega)⟩
  unfold regOfNumber at h
  split at h <;> cases h
  simp only [imp_false] at *
  omega

/-- None of the command's own tests fires (R177). -/
def CarriedOut (s : State) : Instr → Prop
  | .imgPush _ => s.status = .idle ∧ s.len.toNat < Config.imgCap
  | .imgPop => s.status = .signed ∧ s.rptr ≠ s.len
  | .sign => 256 ≤ s.len.toNat ∧ s.memRead4 0 = .ok Config.magic
  | .rdreg n => regOfNumber n ≠ none
  | .crcInit | .crcByte _ | .crcRead | .imgClear | .sysReset => True

/-- R171's table, a constructor per row: a word that decodes to `r`, given in state `s`, is answered with code `c` and
datum `d`, and leaves the state `u` but for the response. What an `OK` carries and leaves is each command's own. -/
inductive Responds (s : State) : Except Illegal Instr → RCode → Word → State → Prop where
  | ok {i : Instr} (h : CarriedOut s i) (d : Word) (u : State) : Responds s (.ok i) .ok d u
  | illegalCmd (e : Illegal) : Responds s (.error e) .illegalCmd 0 s
  | badReg {n : Byte} (hn : regOfNumber n = none) : Responds s (.ok (.rdreg n)) .badReg 0 s
  | seqError (b : Byte) (hst : s.status ≠ .idle) : Responds s (.ok (.imgPush b)) .seqError 0 s
  | imgFull (b : Byte) (hst : s.status = .idle) (hfull : s.len.toNat = Config.imgCap) :
    Responds s (.ok (.imgPush b)) .imgFull 0 s
  | noOutput (hst : s.status ≠ .signed) : Responds s (.ok .imgPop) .noOutput 0 s
  | endOfImage (hst : s.status = .signed) (hend : s.rptr = s.len) : Responds s (.ok .imgPop) .endOfImage 0 s
  | imageTooSmall (hlen : s.len.toNat < 256) :
    Responds s (.ok .sign) .imageTooSmall 0 (s.forgetResult.setStatus .tooSmall)
  | invalidMagic {m : Word} (hlen : 256 ≤ s.len.toNat) (h0 : s.memRead4 0 = .ok m) (hm : m ≠ Config.magic) :
    Responds s (.ok .sign) .invalidMagic m ((s.forgetResult.setStatus .badMagic).setErrval m)

/-- `t` is what a row of the table leaves, with the row's response in the port. -/
def Answered (s : State) (r : Except Illegal Instr) (t : State) : Prop :=
  ∃ c d u, t = u.setResp (some ⟨c, d⟩) ∧ Responds s r c d u

theorem Responds.answered {s u : State} {r : Except Illegal Instr} {c : RCode} {d : Word} (h : Responds s r c d u) :
    Answered s r (u.setResp (some ⟨c, d⟩)) := ⟨c, d, u, rfl, h⟩

theorem CarriedOut.answered {s : State} {i : Instr} {d : Word} {u : State} (h : CarriedOut s i) :
    Answered s (.ok i) (u.setResp (some ⟨.ok, d⟩)) := (Responds.ok h d u).answered

/-- Every outcome of every command is a row of the table. -/
theorem exec_answered {i : Instr} {s t : State} (h : exec i s = .next t) : Answered s (.ok i) t := by
  obtain ⟨rfl, rfl⟩ | ⟨b, rfl, rfl⟩ | ⟨rfl, rfl⟩ | ⟨rfl, rfl⟩ | ⟨b, rfl, hb⟩ | ⟨rfl, hpop⟩ | ⟨rfl, hsign⟩ |
    ⟨n, rfl, hreg⟩ | ⟨rfl, rfl⟩ := exec_next h
  · exact CarriedOut.answered trivial
  · exact CarriedOut.answered trivial
  · exact CarriedOut.answered trivial
  · exact CarriedOut.answered trivial
  · obtain ⟨hst, rfl⟩ | ⟨hst, hfull, rfl⟩ | ⟨hst, hlt, rfl⟩ := execImgPush_next hb
    · exact (Responds.seqError b hst).answered
    · exact (Responds.imgFull b hst hfull).answered
    · exact CarriedOut.answered ⟨hst, hlt⟩
  · obtain ⟨hst, rfl⟩ | ⟨hst, hend, rfl⟩ | ⟨hst, hne, v, -, rfl⟩ := execImgPop_next hpop
    · exact (Responds.noOutput hst).answered
    · exact (Responds.endOfImage hst hend).answered
    · exact CarriedOut.answered ⟨hst, hne⟩
  · obtain ⟨hlen, rfl⟩ | ⟨hlen, m, v, h0, -, hm, rfl⟩ | ⟨hlen, v, c, h0, -, -, rfl⟩ := execSign_next hsign
    · exact (Responds.imageTooSmall hlen).answered
    · exact (Responds.invalidMagic hlen h0 hm).answered
    · exact CarriedOut.answered ⟨hlen, h0⟩
  · obtain ⟨r, hr, rfl⟩ | ⟨hr, rfl⟩ := execRdreg_next hreg
    · exact CarriedOut.answered (Option.ne_none_iff_exists'.mpr ⟨r, hr⟩)
    · exact (Responds.badReg hr).answered
  · exact CarriedOut.answered trivial

theorem step_answered {s t : State} {w : CmdWord} {rest : List HostEvent} (hin : s.input = .command w :: rest)
    (h : step s = .next t) : Answered (s.setInput rest) (decode w) t := by
  cases hw : decode w with
  | ok i => exact exec_answered (step_of_command hin hw ▸ h)
  | error e =>
    rw [step_of_illegal hin hw] at h
    cases h
    exact (Responds.illegalCmd e).answered

/-! ### The six interface refusals (R175) -/

theorem isRefusal_iff {c : RCode} : c.isRefusal = true ↔
    c = .illegalCmd ∨ c = .badReg ∨ c = .seqError ∨ c = .imgFull ∨ c = .noOutput ∨ c = .endOfImage := by
  cases c <;> decide

theorem isRefusal_of_ne {c : RCode} (hok : c ≠ .ok) (hsmall : c ≠ .imageTooSmall) (hmagic : c ≠ .invalidMagic) :
    c.isRefusal = true := by
  cases c with
  | ok => exact absurd rfl hok
  | imageTooSmall => exact absurd rfl hsmall
  | invalidMagic => exact absurd rfl hmagic
  | illegalCmd | badReg | seqError | imgFull | noOutput | endOfImage => rfl

/-! ### What a row says, by its code and by its command (R171, R174) -/

section
variable {s u : State} {r : Except Illegal Instr} {c : RCode} {d : Word}

theorem Responds.of_refusal (h : Responds s r c d u) (hc : c.isRefusal = true) : d = 0 ∧ u = s := by
  cases h with
  | ok | imageTooSmall | invalidMagic => cases hc
  | illegalCmd | badReg | seqError | imgFull | noOutput | endOfImage => exact ⟨rfl, rfl⟩

theorem Responds.of_imageTooSmall (h : Responds s r .imageTooSmall d u) :
    d = 0 ∧ u = s.forgetResult.setStatus .tooSmall := by
  cases h
  exact ⟨rfl, rfl⟩

theorem Responds.of_invalidMagic (h : Responds s r .invalidMagic d u) :
    s.memRead4 0 = .ok d ∧ u = (s.forgetResult.setStatus .badMagic).setErrval d := by
  cases h with
  | invalidMagic _ h0 _ => exact ⟨h0, rfl⟩

theorem Responds.of_sign (h : Responds s (.ok .sign) c d u) : c = .ok ∨ c = .imageTooSmall ∨ c = .invalidMagic := by
  cases h with
  | ok | imageTooSmall | invalidMagic => simp

/-- The five commands without a test of their own. -/
theorem Responds.of_alwaysOk (h : Responds s r c d u)
    (hr : r = .ok .crcInit ∨ (∃ b, r = .ok (.crcByte b)) ∨ r = .ok .crcRead ∨ r = .ok .imgClear ∨
      r = .ok .sysReset) : c = .ok := by
  obtain rfl | ⟨b, rfl⟩ | rfl | rfl | rfl := hr <;> cases h <;> rfl

/-- The conditions of the rows exclude each other, so each holds exactly when its row is the one that answers. -/
theorem Responds.conditions (h : Responds s r c d u) :
    (c = .illegalCmd ↔ ∃ e, r = .error e) ∧
    (c = .badReg ↔ ∃ n, r = .ok (.rdreg n) ∧ ¬ (n.toNat ≤ 0x07 ∨ 0x10 ≤ n.toNat ∧ n.toNat ≤ 0x14)) ∧
    (c = .seqError ↔ (∃ b, r = .ok (.imgPush b)) ∧ s.status ≠ .idle) ∧
    (c = .imgFull ↔ (∃ b, r = .ok (.imgPush b)) ∧ s.status = .idle ∧ s.len.toNat = Config.imgCap) ∧
    (c = .noOutput ↔ r = .ok .imgPop ∧ s.status ≠ .signed) ∧
    (c = .endOfImage ↔ r = .ok .imgPop ∧ s.status = .signed ∧ s.rptr = s.len) ∧
    (c = .imageTooSmall ↔ r = .ok .sign ∧ s.len.toNat < 256) ∧
    (c = .invalidMagic ↔ r = .ok .sign ∧ 256 ≤ s.len.toNat ∧ ∃ m, s.memRead4 0 = .ok m ∧ m ≠ Config.magic) := by
  simp only [← regOfNumber_eq_none_iff]
  cases h with
  | @ok i h =>
    cases i with
    | crcInit | crcByte b | crcRead | imgClear | sysReset => simp
    | imgPush b =>
      obtain ⟨hst, hlt⟩ := h
      simp [hst, hlt.ne]
    | imgPop =>
      obtain ⟨hst, hne⟩ := h
      simp [hst, hne]
    | sign =>
      obtain ⟨hlen, h0⟩ := h
      simp [hlen, h0]
    | rdreg n =>
      have hn : regOfNumber n ≠ none := h
      simp [hn]
  | illegalCmd e => simp
  | badReg hn => simp [hn]
  | seqError b hst => simp [hst]
  | imgFull b hst hfull => simp [hst, hfull]
  | noOutput hst => simp [hst]
  | endOfImage hst hend => simp [hst, hend]
  | imageTooSmall hlen => simp [hlen]
  | invalidMagic hlen h0 hm => simp [hlen, h0, hm]

end

/-! ### The statements -/

/-- Settles O42: a step on a command word is a row of the table (`step_answered`), and the conditions of the rows are
`Responds.conditions`. -/
theorem responseCodesTable : Obligations.ResponseCodesTable := by
  refine ⟨fun s t w rest hin h => ?_, by decide, fun c => by cases c <;> decide⟩
  obtain ⟨c, d, u, rfl, hrow⟩ := step_answered hin h
  obtain ⟨hillegal, hreg, hseq, hfull, hout, hend, hsmall, hmagic⟩ := hrow.conditions
  refine ⟨c, d, rfl, hillegal, hreg, hseq, hfull, hout, hend, hsmall, hmagic, ?_, ?_, ?_, hrow.of_alwaysOk⟩
  · intro hok hnsmall hnmagic
    obtain ⟨hd, rfl⟩ := hrow.of_refusal (isRefusal_of_ne hok hnsmall hnmagic)
    exact ⟨hd, rfl⟩
  · rintro rfl
    obtain ⟨hd, rfl⟩ := hrow.of_imageTooSmall
    exact ⟨hd, rfl⟩
  · rintro rfl
    obtain ⟨h0, rfl⟩ := hrow.of_invalidMagic
    exact ⟨h0, rfl⟩

/-- Settles O44: SIGN has three rows of the table, and only it meets the conditions of the two errors. -/
theorem signErrorsAreClosed : Obligations.SignErrorsAreClosed := by
  intro i s t h
  obtain ⟨c, d, u, rfl, hrow⟩ := exec_answered h
  obtain ⟨-, -, -, -, -, -, hsmall, hmagic⟩ := hrow.conditions
  refine ⟨c, d, rfl, ?_, fun hi => ⟨fun hc => ?_, fun hc => ?_⟩⟩
  · rintro rfl
    exact hrow.of_sign
  · exact hi (Except.ok.inj (hsmall.mp hc).1)
  · exact hi (Except.ok.inj (hmagic.mp hc).1)

/-- Settles O45: the row of a refusal leaves the state it was given in. -/
theorem refusalsChangeNothing : Obligations.RefusalsChangeNothing := by
  intro s t w rest c d hin h hresp hc
  obtain ⟨c', d', u, rfl, hrow⟩ := step_answered hin h
  cases hresp
  obtain ⟨-, rfl⟩ := hrow.of_refusal (isRefusal_iff.mpr hc)
  rfl

end Sys2Proof.Machine

/-! SUPPORT. The statements of 70_reset_and_hazards.md: what the first command after reset does (R201, R202). -/

namespace Sys2Proof.Machine

/-- The registers that tell of an image, those below 0x08, read as 0 at reset (R42). -/
theorem readReg_reset {r : Reg} (hr : (regNumber r).toNat < 0x08) : State.reset.readReg r = 0 := by
  cases r with
  | status | len | rptr | errval | rMagic | rVersion | rSize | rChecksum => rfl
  | cMagic | cHeaderSize | cPayloadOffset | cMinLen | cImgCap => exact absurd hr (by decide)

theorem registerReads_reset {n : Byte} (hn : n.toNat < 0x08) : registerReads State.reset n 0 := by
  have hassigned : regOfNumber n ≠ none := fun hnone => regOfNumber_eq_none_iff.mp hnone (.inl (by omega))
  obtain ⟨r, hr⟩ := Option.ne_none_iff_exists'.mp hassigned
  obtain rfl := regOfNumber_eq_some_iff.mp hr
  exact registerReads_of_readReg hr (readReg_reset hn)

/-- Settles O34: the reset state meets the invariant, so it answers every command; each value is the command's equation
in a state that is idle, empty and holds the initial CRC. -/
theorem firstCommandAfterReset : Obligations.FirstCommandAfterReset := by
  have hroom : State.reset.len.toNat < Config.imgCap := lt_of_lt_of_le (by decide) Config.imgCap_ge
  have hread : Config.crcInit ^^^ Config.crcXorOut = 0 := by decide
  refine ⟨fun i => ?_, hread ▸ exec_crcRead_of_crc rfl, fun _ => ⟨_, _, rfl, rfl, rfl⟩, execSign_tooSmall (by decide),
    execImgPop_noOutput (by decide), fun b => ⟨_, execImgPush_accepted b rfl hroom, rfl, rfl⟩,
    fun _ => registerReads_reset⟩
  obtain ⟨t, -, ht, -⟩ := exec_answers i resetMeetsInvariant
  exact ⟨t, ht⟩

end Sys2Proof.Machine
